-- ==== Sys2Proof/Word.lean ====
section
/-! DEFINITION. The machine's word types (`00_scope.md` R4, R5): every value is unsigned. -/

namespace Sys2Proof

/-- A general register, a timer, a byte of memory: 8 bits (`00_scope.md` R4, XLEN). -/
abbrev Byte := BitVec 8

/-- An opcode, `I`, `pc`, a stack slot: 16 bits (`00_scope.md` R4, INDEX_W, PC_W, STACK_ENTRY_W). -/
abbrev Word := BitVec 16

/-- The opcode's address field `addr12` (`30_encoding.md` R46). -/
abbrev Addr12 := BitVec 12

/-- A register number: the 4-bit fields `x` and `y` name one of 16 registers, so no number needs a
check (`10_state.md` R11). -/
abbrev RegNum := Fin 16

end Sys2Proof
end

