-- ==== Sys2Proof/Config.lean ====
section
/-! DEFINITION. What is fixed for the machine: sizes, the two open parameters, and the free input
`rnd` (`00_scope.md` R4). -/

namespace Sys2Proof

namespace Config

/-- `MEM_SIZE`: bytes of memory, addresses 0x000 to 0xFFF. -/
abbrev memSize : Nat := 4096

/-- `ROM_BASE`: first address of the loaded program, and the reset value of `pc`. -/
abbrev romBase : Nat := 0x200

/-- `ROM_MAX`: the largest program in bytes, `MEM_SIZE - ROM_BASE`. -/
abbrev romMax : Nat := 3584

/-- `FB_W`: framebuffer columns. -/
abbrev fbWidth : Nat := 64

/-- `FB_H`: framebuffer rows. -/
abbrev fbHeight : Nat := 32

/-- The value of the free input `rnd` (`00_scope.md` R4, `41_alu.md` R82: "any value 0 to 255, under
no law") at the n-th draw. It has no body, so nothing can be proved about its values
(log entry 1, DESIGN CHOICE). -/
opaque randomByte : Nat → Byte

end Config

/-- `UNKNOWN_OPCODE_POLICY` (`00_scope.md` R4, `60_exceptions.md` R112). -/
inductive UnknownOpcodePolicy where
  /-- the default: a step that reports UnknownOpcode changes nothing -/
  | abort
  /-- it advances `pc` by 2, and still reports the error -/
  | skip
  deriving DecidableEq, Repr

/-- The open parameters of `00_scope.md` R4 that a rule reads. They are data of the state that
nothing writes, so that every statement holds for all their values (log entry 3, DESIGN CHOICE). -/
structure Params where
  /-- `HAS_SOUND_TIMER`: the sound timer, its instruction FX18 and its tick exist -/
  hasSoundTimer : Bool
  /-- `UNKNOWN_OPCODE_POLICY` -/
  unknownOpcodePolicy : UnknownOpcodePolicy
  deriving DecidableEq, Repr

/-- The defaults of `00_scope.md` R4: no sound timer, abort. -/
def Params.default : Params := { hasSoundTimer := false, unknownOpcodePolicy := .abort }

end Sys2Proof
end

