-- ==== Sys2Proof/Syntax.lean ====
section
/-! DEFINITION. The closed enumeration of instructions (`30_encoding.md` R49, R56): one constructor
for each row of `spec/opcode_table.json`, with the fields its format names (R46, R47). Ignored bits
(R50) are no fields. -/

namespace Sys2Proof

/-- The 37 instructions of `30_encoding.md` R49, in the table's order. `x`, `y` are register
numbers, `nn` is `imm8`, `addr` is `addr12`, `n` is `nibble4`. -/
inductive Instr where
  /-- CLS (00E0) -/
  | cls
  /-- RET (00EE) -/
  | ret
  /-- EXIT (00FD) -/
  | exit
  /-- LOW (00FE) -/
  | low
  /-- HIGH (00FF) -/
  | high
  /-- JP NNN (1NNN) -/
  | jp (addr : Addr12)
  /-- CALL NNN (2NNN) -/
  | call (addr : Addr12)
  /-- SE Vx,NN (3XNN) -/
  | seImm (x : RegNum) (nn : Byte)
  /-- SNE Vx,NN (4XNN) -/
  | sneImm (x : RegNum) (nn : Byte)
  /-- SE Vx,Vy (5XY_) -/
  | seReg (x y : RegNum)
  /-- LD Vx,NN (6XNN) -/
  | ldImm (x : RegNum) (nn : Byte)
  /-- ADD Vx,NN (7XNN) -/
  | addImm (x : RegNum) (nn : Byte)
  /-- LD Vx,Vy (8XY0) -/
  | ldReg (x y : RegNum)
  /-- OR Vx,Vy (8XY1) -/
  | orReg (x y : RegNum)
  /-- AND Vx,Vy (8XY2) -/
  | andReg (x y : RegNum)
  /-- XOR Vx,Vy (8XY3) -/
  | xorReg (x y : RegNum)
  /-- ADD Vx,Vy (8XY4) -/
  | addReg (x y : RegNum)
  /-- SUB Vx,Vy (8XY5) -/
  | subReg (x y : RegNum)
  /-- SHR Vx (8XY6; `y` is encoded and ignored) -/
  | shr (x : RegNum)
  /-- SUBN Vx,Vy (8XY7) -/
  | subnReg (x y : RegNum)
  /-- SHL Vx (8XYE; `y` is encoded and ignored) -/
  | shl (x : RegNum)
  /-- SNE Vx,Vy (9XY_) -/
  | sneReg (x y : RegNum)
  /-- LD I,NNN (ANNN) -/
  | ldI (addr : Addr12)
  /-- JP V0,NNN (BNNN) -/
  | jpV0 (addr : Addr12)
  /-- RND Vx,NN (CXNN) -/
  | rnd (x : RegNum) (nn : Byte)
  /-- DRW Vx,Vy,N (DXYN) -/
  | drw (x y : RegNum) (n : Fin 16)
  /-- SKP Vx (EX9E) -/
  | skp (x : RegNum)
  /-- SKNP Vx (EXA1) -/
  | sknp (x : RegNum)
  /-- LD Vx,DT (FX07) -/
  | ldVxDT (x : RegNum)
  /-- LD Vx,K (FX0A) -/
  | ldVxK (x : RegNum)
  /-- LD DT,Vx (FX15) -/
  | ldDTVx (x : RegNum)
  /-- ADD I,Vx (FX1E) -/
  | addI (x : RegNum)
  /-- LD F,Vx (FX29) -/
  | ldF (x : RegNum)
  /-- LD B,Vx (FX33) -/
  | ldB (x : RegNum)
  /-- LD [I],Vx (FX55) -/
  | storeRegs (x : RegNum)
  /-- LD Vx,[I] (FX65) -/
  | loadRegs (x : RegNum)
  /-- LD ST,Vx (FX18; only with `HAS_SOUND_TIMER`) -/
  | ldSTVx (x : RegNum)
  deriving DecidableEq, Repr

/-- The instruction's mnemonic as `spec/opcode_table.json` spells it. -/
def Instr.mnemonic : Instr → String
  | .cls => "CLS"
  | .ret => "RET"
  | .exit => "EXIT"
  | .low => "LOW"
  | .high => "HIGH"
  | .jp _ => "JP_NNN"
  | .call _ => "CALL_NNN"
  | .seImm _ _ => "SE_Vx_NN"
  | .sneImm _ _ => "SNE_Vx_NN"
  | .seReg _ _ => "SE_Vx_Vy"
  | .ldImm _ _ => "LD_Vx_NN"
  | .addImm _ _ => "ADD_Vx_NN"
  | .ldReg _ _ => "LD_Vx_Vy"
  | .orReg _ _ => "OR_Vx_Vy"
  | .andReg _ _ => "AND_Vx_Vy"
  | .xorReg _ _ => "XOR_Vx_Vy"
  | .addReg _ _ => "ADD_Vx_Vy"
  | .subReg _ _ => "SUB_Vx_Vy"
  | .shr _ => "SHR_Vx"
  | .subnReg _ _ => "SUBN_Vx_Vy"
  | .shl _ => "SHL_Vx"
  | .sneReg _ _ => "SNE_Vx_Vy"
  | .ldI _ => "LD_I_NNN"
  | .jpV0 _ => "JP_V0_NNN"
  | .rnd _ _ => "RND_Vx_NN"
  | .drw _ _ _ => "DRW_Vx_Vy_N"
  | .skp _ => "SKP_Vx"
  | .sknp _ => "SKNP_Vx"
  | .ldVxDT _ => "LD_Vx_DT"
  | .ldVxK _ => "LD_Vx_K"
  | .ldDTVx _ => "LD_DT_Vx"
  | .addI _ => "ADD_I_Vx"
  | .ldF _ => "LD_F_Vx"
  | .ldB _ => "LD_B_Vx"
  | .storeRegs _ => "LD__I__Vx"
  | .loadRegs _ => "LD_Vx__I"
  | .ldSTVx _ => "LD_ST_Vx"

end Sys2Proof
end

