-- ==== Sys2Proof/WellFormed.lean ====
section
/-! DEFINITION. Which terms of `Instr` are instructions of the machine. A register number, an
address, an immediate and a row count are in range by their types; the one check left is that
FX18 exists only with the sound timer (`30_encoding.md` R49, R53). -/

namespace Sys2Proof

/-- Is `i` an instruction of a machine with (`true`) or without the sound timer? Without it the
36 rows of `30_encoding.md` R49 are, and LD ST,Vx is not (R53). -/
def Instr.wellFormed (hasSoundTimer : Bool) : Instr → Bool
  | .ldSTVx _ => hasSoundTimer
  | .cls | .ret | .exit | .low | .high | .jp _ | .call _ | .seImm _ _ | .sneImm _ _ | .seReg _ _
  | .ldImm _ _ | .addImm _ _ | .ldReg _ _ | .orReg _ _ | .andReg _ _ | .xorReg _ _ | .addReg _ _
  | .subReg _ _ | .shr _ | .subnReg _ _ | .shl _ | .sneReg _ _ | .ldI _ | .jpV0 _ | .rnd _ _
  | .drw _ _ _ | .skp _ | .sknp _ | .ldVxDT _ | .ldVxK _ | .ldDTVx _ | .addI _ | .ldF _ | .ldB _
  | .storeRegs _ | .loadRegs _ => true

end Sys2Proof
end

