-- ==== Sys2Proof/Decode.lean ====
section
/-! DEFINITION. Decoding a 16-bit opcode (`30_encoding.md` R45 to R53), the encoder, and the opcode
map of R49 as data. -/

namespace Sys2Proof

/-! ## Fields (`30_encoding.md` R46) -/

/-- The opcode from its two bytes, big-endian: the byte at the lower address is bits 15 to 8
(`20_memory.md` R32). -/
def composeWord (hi lo : Byte) : Word := hi ++ lo

/-- Opcode bits 15 to 12, the dispatch value. -/
def fieldTop (w : Word) : BitVec 4 := w.extractLsb' 12 4

/-- `reg_x`, bits 11 to 8. -/
def fieldX (w : Word) : RegNum := (w.extractLsb' 8 4).toFin

/-- `reg_y`, bits 7 to 4. -/
def fieldY (w : Word) : RegNum := (w.extractLsb' 4 4).toFin

/-- `nibble4`, bits 3 to 0. -/
def fieldN (w : Word) : Fin 16 := (w.extractLsb' 0 4).toFin

/-- `imm8`, bits 7 to 0. -/
def fieldNN (w : Word) : Byte := w.extractLsb' 0 8

/-- `addr12`, bits 11 to 0. -/
def fieldAddr (w : Word) : Addr12 := w.extractLsb' 0 12

/-! ## Dispatch (`30_encoding.md` R48, R49) -/

/-- What decoding answers: one instruction with its fields, or `unknown` with the opcode (R48, R51). -/
inductive Decoded where
  | instr (i : Instr)
  | unknown (opcode : Word)
  deriving DecidableEq, Repr

/-- Class 0x0, sub-dispatched on the low byte; bits 11 to 8 are ignored (R50). -/
def decodeClass0 (w : Word) : Decoded :=
  match (fieldNN w).toNat with
  | 0xE0 => .instr .cls
  | 0xEE => .instr .ret
  | 0xFD => .instr .exit
  | 0xFE => .instr .low
  | 0xFF => .instr .high
  | _ => .unknown w

/-- Class 0x8, sub-dispatched on the low nibble. -/
def decodeClass8 (w : Word) : Decoded :=
  match (fieldN w).val with
  | 0x0 => .instr (.ldReg (fieldX w) (fieldY w))
  | 0x1 => .instr (.orReg (fieldX w) (fieldY w))
  | 0x2 => .instr (.andReg (fieldX w) (fieldY w))
  | 0x3 => .instr (.xorReg (fieldX w) (fieldY w))
  | 0x4 => .instr (.addReg (fieldX w) (fieldY w))
  | 0x5 => .instr (.subReg (fieldX w) (fieldY w))
  | 0x6 => .instr (.shr (fieldX w))
  | 0x7 => .instr (.subnReg (fieldX w) (fieldY w))
  | 0xE => .instr (.shl (fieldX w))
  | _ => .unknown w

/-- Class 0xE, sub-dispatched on the low byte. -/
def decodeClassE (w : Word) : Decoded :=
  match (fieldNN w).toNat with
  | 0x9E => .instr (.skp (fieldX w))
  | 0xA1 => .instr (.sknp (fieldX w))
  | _ => .unknown w

/-- Class 0xF, sub-dispatched on the low byte; 0x18 is known only with the sound timer (R53). -/
def decodeClassF (hasSoundTimer : Bool) (w : Word) : Decoded :=
  match (fieldNN w).toNat with
  | 0x07 => .instr (.ldVxDT (fieldX w))
  | 0x0A => .instr (.ldVxK (fieldX w))
  | 0x15 => .instr (.ldDTVx (fieldX w))
  | 0x18 => if hasSoundTimer then .instr (.ldSTVx (fieldX w)) else .unknown w
  | 0x1E => .instr (.addI (fieldX w))
  | 0x29 => .instr (.ldF (fieldX w))
  | 0x33 => .instr (.ldB (fieldX w))
  | 0x55 => .instr (.storeRegs (fieldX w))
  | 0x65 => .instr (.loadRegs (fieldX w))
  | _ => .unknown w

/-- The decoder of `30_encoding.md` R48, R49: total on every word, reading no state; the only thing
it depends on beside the word is the fixed parameter `HAS_SOUND_TIMER` (R53). -/
def decode (hasSoundTimer : Bool) (w : Word) : Decoded :=
  match (fieldTop w).toNat with
  | 0x0 => decodeClass0 w
  | 0x1 => .instr (.jp (fieldAddr w))
  | 0x2 => .instr (.call (fieldAddr w))
  | 0x3 => .instr (.seImm (fieldX w) (fieldNN w))
  | 0x4 => .instr (.sneImm (fieldX w) (fieldNN w))
  | 0x5 => .instr (.seReg (fieldX w) (fieldY w))
  | 0x6 => .instr (.ldImm (fieldX w) (fieldNN w))
  | 0x7 => .instr (.addImm (fieldX w) (fieldNN w))
  | 0x8 => decodeClass8 w
  | 0x9 => .instr (.sneReg (fieldX w) (fieldY w))
  | 0xA => .instr (.ldI (fieldAddr w))
  | 0xB => .instr (.jpV0 (fieldAddr w))
  | 0xC => .instr (.rnd (fieldX w) (fieldNN w))
  | 0xD => .instr (.drw (fieldX w) (fieldY w) (fieldN w))
  | 0xE => decodeClassE w
  | _ => decodeClassF hasSoundTimer w

/-! ## Encoder (`30_encoding.md` R47, R49, R50) -/

/-- The four bits of a register number or of a row count. -/
def nibbleBits (x : Fin 16) : BitVec 4 := BitVec.ofFin (w := 4) x

/-- Formats NNN: top nibble and `addr12`. -/
def wordNNN (top : BitVec 4) (a : Addr12) : Word := top ++ a

/-- Formats XNN, X and Z: top nibble, bits 11 to 8, low byte. -/
def wordXNN (top : BitVec 4) (x : Fin 16) (nn : Byte) : Word := top ++ (nibbleBits x ++ nn)

/-- Formats XY and XYN: top nibble, `x`, `y`, low nibble. -/
def wordXYN (top : BitVec 4) (x y n : Fin 16) : Word :=
  top ++ (nibbleBits x ++ (nibbleBits y ++ nibbleBits n))

/-- The canonical word of an instruction: ignored bits are 0 (`30_encoding.md` R50; the `y` bits of
SHR and SHL, for which R50 allows any value, are 0 too: log entry 10, DESIGN CHOICE). -/
def encode : Instr → Word
  | .cls => wordXNN 0x0 0 0xE0
  | .ret => wordXNN 0x0 0 0xEE
  | .exit => wordXNN 0x0 0 0xFD
  | .low => wordXNN 0x0 0 0xFE
  | .high => wordXNN 0x0 0 0xFF
  | .jp a => wordNNN 0x1 a
  | .call a => wordNNN 0x2 a
  | .seImm x nn => wordXNN 0x3 x nn
  | .sneImm x nn => wordXNN 0x4 x nn
  | .seReg x y => wordXYN 0x5 x y 0
  | .ldImm x nn => wordXNN 0x6 x nn
  | .addImm x nn => wordXNN 0x7 x nn
  | .ldReg x y => wordXYN 0x8 x y 0x0
  | .orReg x y => wordXYN 0x8 x y 0x1
  | .andReg x y => wordXYN 0x8 x y 0x2
  | .xorReg x y => wordXYN 0x8 x y 0x3
  | .addReg x y => wordXYN 0x8 x y 0x4
  | .subReg x y => wordXYN 0x8 x y 0x5
  | .shr x => wordXYN 0x8 x 0 0x6
  | .subnReg x y => wordXYN 0x8 x y 0x7
  | .shl x => wordXYN 0x8 x 0 0xE
  | .sneReg x y => wordXYN 0x9 x y 0
  | .ldI a => wordNNN 0xA a
  | .jpV0 a => wordNNN 0xB a
  | .rnd x nn => wordXNN 0xC x nn
  | .drw x y n => wordXYN 0xD x y n
  | .skp x => wordXNN 0xE x 0x9E
  | .sknp x => wordXNN 0xE x 0xA1
  | .ldVxDT x => wordXNN 0xF x 0x07
  | .ldVxK x => wordXNN 0xF x 0x0A
  | .ldDTVx x => wordXNN 0xF x 0x15
  | .addI x => wordXNN 0xF x 0x1E
  | .ldF x => wordXNN 0xF x 0x29
  | .ldB x => wordXNN 0xF x 0x33
  | .storeRegs x => wordXNN 0xF x 0x55
  | .loadRegs x => wordXNN 0xF x 0x65
  | .ldSTVx x => wordXNN 0xF x 0x18

/-- The bits decode ignores for an instruction (`30_encoding.md` R50). -/
def Instr.ignoredBits : Instr → Word
  | .cls | .ret | .exit | .low | .high => 0x0F00
  | .seReg _ _ | .sneReg _ _ => 0x000F
  | .shr _ | .shl _ => 0x00F0
  | .jp _ | .call _ | .seImm _ _ | .sneImm _ _ | .ldImm _ _ | .addImm _ _ | .ldReg _ _ | .orReg _ _
  | .andReg _ _ | .xorReg _ _ | .addReg _ _ | .subReg _ _ | .subnReg _ _ | .ldI _ | .jpV0 _
  | .rnd _ _ | .drw _ _ _ | .skp _ | .sknp _ | .ldVxDT _ | .ldVxK _ | .ldDTVx _ | .addI _ | .ldF _
  | .ldB _ | .storeRegs _ | .loadRegs _ | .ldSTVx _ => 0x0000

/-! ## The opcode map as data (`30_encoding.md` R49) -/

/-- One row of the opcode map: the instruction named is selected exactly when
`opcode & mask == value`. -/
structure OpcodeRow where
  mnemonic : String
  mask : Word
  value : Word
  deriving DecidableEq, Repr

/-- Rows 1 to 12 of the map. -/
def opcodeRows1 : List OpcodeRow :=
  [ ⟨"CLS", 0xF0FF, 0x00E0⟩, ⟨"RET", 0xF0FF, 0x00EE⟩, ⟨"EXIT", 0xF0FF, 0x00FD⟩,
    ⟨"LOW", 0xF0FF, 0x00FE⟩, ⟨"HIGH", 0xF0FF, 0x00FF⟩, ⟨"JP_NNN", 0xF000, 0x1000⟩,
    ⟨"CALL_NNN", 0xF000, 0x2000⟩, ⟨"SE_Vx_NN", 0xF000, 0x3000⟩, ⟨"SNE_Vx_NN", 0xF000, 0x4000⟩,
    ⟨"SE_Vx_Vy", 0xF000, 0x5000⟩, ⟨"LD_Vx_NN", 0xF000, 0x6000⟩, ⟨"ADD_Vx_NN", 0xF000, 0x7000⟩ ]

/-- Rows 13 to 26 of the map. -/
def opcodeRows2 : List OpcodeRow :=
  [ ⟨"LD_Vx_Vy", 0xF00F, 0x8000⟩, ⟨"OR_Vx_Vy", 0xF00F, 0x8001⟩, ⟨"AND_Vx_Vy", 0xF00F, 0x8002⟩,
    ⟨"XOR_Vx_Vy", 0xF00F, 0x8003⟩, ⟨"ADD_Vx_Vy", 0xF00F, 0x8004⟩, ⟨"SUB_Vx_Vy", 0xF00F, 0x8005⟩,
    ⟨"SHR_Vx", 0xF00F, 0x8006⟩, ⟨"SUBN_Vx_Vy", 0xF00F, 0x8007⟩, ⟨"SHL_Vx", 0xF00F, 0x800E⟩,
    ⟨"SNE_Vx_Vy", 0xF000, 0x9000⟩, ⟨"LD_I_NNN", 0xF000, 0xA000⟩, ⟨"JP_V0_NNN", 0xF000, 0xB000⟩,
    ⟨"RND_Vx_NN", 0xF000, 0xC000⟩, ⟨"DRW_Vx_Vy_N", 0xF000, 0xD000⟩ ]

/-- Rows 27 to 37 of the map; the last one is present only with the sound timer. -/
def opcodeRows3 : List OpcodeRow :=
  [ ⟨"SKP_Vx", 0xF0FF, 0xE09E⟩, ⟨"SKNP_Vx", 0xF0FF, 0xE0A1⟩, ⟨"LD_Vx_DT", 0xF0FF, 0xF007⟩,
    ⟨"LD_Vx_K", 0xF0FF, 0xF00A⟩, ⟨"LD_DT_Vx", 0xF0FF, 0xF015⟩, ⟨"ADD_I_Vx", 0xF0FF, 0xF01E⟩,
    ⟨"LD_F_Vx", 0xF0FF, 0xF029⟩, ⟨"LD_B_Vx", 0xF0FF, 0xF033⟩, ⟨"LD__I__Vx", 0xF0FF, 0xF055⟩,
    ⟨"LD_Vx__I", 0xF0FF, 0xF065⟩, ⟨"LD_ST_Vx", 0xF0FF, 0xF018⟩ ]

/-- The opcode map of `30_encoding.md` R49. -/
def opcodeMap : List OpcodeRow := opcodeRows1 ++ opcodeRows2 ++ opcodeRows3

/-- The unknown words as `30_encoding.md` R51 lists them, class by class, on the opcode as a number. -/
def listedUnknown (hasSoundTimer : Bool) (w : Word) : Bool :=
  let low := w.toNat % 256
  match w.toNat / 4096 with
  | 0x0 => !([0xE0, 0xEE, 0xFD, 0xFE, 0xFF].contains low)
  | 0x8 => [0x8, 0x9, 0xA, 0xB, 0xC, 0xD, 0xF].contains (w.toNat % 16)
  | 0xE => !([0x9E, 0xA1].contains low)
  | 0xF => !([0x07, 0x0A, 0x15, 0x1E, 0x29, 0x33, 0x55, 0x65].contains low) &&
      !(hasSoundTimer && low == 0x18)
  | _ => false

/-! ## The host's questions -/

/-- The two bytes of an opcode as memory holds them, high byte first (`20_memory.md` R32). -/
def wordBytes (w : Word) : List Byte := [w.extractLsb' 8 8, w.extractLsb' 0 8]

/-- The opcode of a table row's bits: bits above `nbits` are 0. -/
def tableWord (nbits w : Nat) : Word := BitVec.ofNat 16 (w % 2 ^ nbits)

/-- The instruction the decoder reads from an opcode-table word. The table has 37 rows, so this
asks the decoder of a machine with the sound timer (`30_encoding.md` R49 row 37). -/
def decodeTableWord (nbits w : Nat) : Option Instr :=
  match wordBytes (tableWord nbits w) with
  | [hi, lo] =>
    match decode true (composeWord hi lo) with
    | .instr i => some i
    | .unknown _ => none
  | _ => none

end Sys2Proof
end

