-- ==== Sys2Proof/Machine/State.lean ====
section
/-! DEFINITION. The state of CORE (`10_state.md` R10), its reset value (R24), and the reasons a step
can stop. -/

namespace Sys2Proof.Machine

/-- The drawing tag of `10_state.md` R21. -/
inductive Mode where
  | standard
  | extended
  deriving DecidableEq, Repr

/-- The error kinds of `60_exceptions.md` R110 with their info values. -/
inductive ErrorKind where
  /-- decode found no handler for the opcode (R112) -/
  | unknownOpcode (opcode : Word)
  /-- CALL with a full stack (R113) -/
  | stackOverflow
  /-- RET with an empty stack (R114) -/
  | stackUnderflow
  /-- a fetch, an access through `I`, or a key index out of range, and the offending value (R111) -/
  | outOfBounds (a : Nat)
  /-- LOAD_ROM offered a program that is too long (R115) -/
  | romTooLarge (len : Nat)
  deriving DecidableEq, Repr

/-- The outcome an operation hands to the host (`00_scope.md` R7, `60_exceptions.md` R110). -/
inductive StepOutcome where
  | ok
  | haltRequested
  | error (e : ErrorKind)
  deriving DecidableEq, Repr

/-- Memory as the list of the cells that differ from the reset contents, addresses strictly rising
(log entry 8); `Machine/Memory.lean` reads and writes it. -/
abbrev Memory := List Host.Cell

/-- The framebuffer: 32 rows from the top, each of 64 pixels from the left (`10_state.md` R19). -/
abbrev Framebuffer := Vector (Vector Bool 64) 32

/-- All state of CORE (`10_state.md` R10) and, below it, three fields of the model's own. -/
structure State where
  /-- V0 to VF (R11) -/
  v : Vector Byte 16
  /-- the index register `I` (R13) -/
  i : Word
  /-- the program counter (R14) -/
  pc : Word
  /-- the call stack's slots (R15) -/
  stack : Vector Word 16
  /-- the index of the next free slot, 0 to 16 (R15) -/
  sp : Fin 17
  /-- the delay timer `DT` (R16) -/
  dt : Byte
  /-- the sound timer `ST`; it exists only with `params.hasSoundTimer` (R17, log entry 6) -/
  st : Byte
  /-- the key latches (R18) -/
  key : Vector Bool 16
  /-- the framebuffer (R19) -/
  fb : Framebuffer
  /-- the draw-dirty flag (R20) -/
  dirty : Bool
  /-- the mode tag (R21) -/
  mode : Mode
  /-- the 4096 bytes of memory (`20_memory.md` R30) -/
  mem : Memory
  /-- the model's own: the open parameters, written by nothing (log entry 3) -/
  params : Params
  /-- the model's own: how many random bytes have been drawn (log entry 1) -/
  draws : Nat
  /-- the model's own: the outcome handed to the host by the last operation (log entry 2) -/
  outcome : StepOutcome
  deriving DecidableEq, Repr

/-- Reasons a step stops with a fault. -/
inductive Fault where
  /-- A memory primitive of `20_memory.md` R36 was applied to an address outside 0 to 4095. Safe: the
  machine stops. Every rule checks its addresses first (R35, R45), so no step raises it. -/
  | accessOutsideMemory (a : Nat)
  deriving DecidableEq, Repr

/-- Reasons a step or a host operation is refused. -/
inductive Refusal where
  /-- An instruction without a meaning, rejected by name in `exec`. Safe. No arm raises it now. -/
  | notModelled (mnemonic : String)
  /-- The host's `SET_KEY` with a key above 15, a host error outside the model (`60_exceptions.md`
  R125). Safe: the operation is refused. No step raises it. -/
  | keyIndexOutOfRange (k : Nat)
  /-- The host's `LOAD_ROM` after a step, to which the spec gives no meaning
  (`70_reset_and_hazards.md` R137). Safe: the operation is refused. No step raises it. -/
  | loadRomAfterStep
  deriving DecidableEq, Repr

/-- What a step or a meaning answers. -/
abbrev Result := Host.Outcome State Fault Refusal

/-- The machine right after `RESET` (`10_state.md` R24, `70_reset_and_hazards.md` R135). Memory lists
nothing: every byte is at its reset value, the font included. The parameters are at the spec's
defaults (`00_scope.md` R4); the values of `draws` and `outcome` are DESIGN CHOICEs (log entries 1
and 2). -/
def State.reset : State where
  v := Vector.replicate 16 0
  i := 0
  pc := 0x0200
  stack := Vector.replicate 16 0
  sp := 0
  dt := 0
  st := 0
  key := Vector.replicate 16 false
  fb := Vector.replicate 32 (Vector.replicate 64 false)
  dirty := false
  mode := .standard
  mem := []
  params := Params.default
  draws := 0
  outcome := .ok

end Sys2Proof.Machine
end

