-- ==== Sys2Proof/Machine/Memory.lean ====
section
/-! DEFINITION. The 4096 bytes of memory (`20_memory.md` R30 to R36) over a canonical list of cells,
and the font table (`70_reset_and_hazards.md` R136). -/

namespace Sys2Proof.Machine

/-- The font table `FONT` of `70_reset_and_hazards.md` R136, glyphs 0 to 7 (row by row). -/
def fontLow : List Byte :=
  [ 0xF0, 0x90, 0x90, 0x90, 0xF0,
    0x20, 0x60, 0x20, 0x20, 0x70,
    0xF0, 0x10, 0xF0, 0x80, 0xF0,
    0xF0, 0x10, 0xF0, 0x10, 0xF0,
    0x90, 0x90, 0xF0, 0x10, 0x10,
    0xF0, 0x80, 0xF0, 0x10, 0xF0,
    0xF0, 0x80, 0xF0, 0x90, 0xF0,
    0xF0, 0x10, 0x20, 0x40, 0x40 ]

/-- The font table, glyphs 8 to F. -/
def fontHigh : List Byte :=
  [ 0xF0, 0x90, 0xF0, 0x90, 0xF0,
    0xF0, 0x90, 0xF0, 0x10, 0xF0,
    0xF0, 0x90, 0xF0, 0x90, 0x90,
    0xE0, 0x90, 0xE0, 0x90, 0xE0,
    0xF0, 0x80, 0x80, 0x80, 0xF0,
    0xE0, 0x90, 0x90, 0x90, 0xE0,
    0xF0, 0x80, 0xF0, 0x80, 0xF0,
    0xF0, 0x80, 0xF0, 0x80, 0x80 ]

/-- The 80 bytes of the font, glyph `d` at `5 * d`. -/
def font : List Byte := fontLow ++ fontHigh

/-- What an unlisted address reads as: the reset contents, the font at 0x000 to 0x04F and zero
elsewhere (`10_state.md` R24, `70_reset_and_hazards.md` R135; log entry 8). -/
def blankByte (a : Nat) : Byte := (font[a]?).getD 0

namespace Memory

/-- `mem[a]` for an address in range: the listed byte, or the reset contents. -/
def read (a : Nat) : Memory → Byte
  | [] => blankByte a
  | c :: rest => if c.1 = a then c.2 else read a rest

/-- `mem[a] <- b` for an address in range, keeping the canonical form: writing what an unlisted
address reads as removes the cell. -/
def write (a : Nat) (b : Byte) : Memory → Memory
  | [] => if b = blankByte a then [] else [(a, b)]
  | c :: rest =>
    if c.1 < a then c :: write a b rest
    else if c.1 = a then (if b = blankByte a then rest else (a, b) :: rest)
    else if b = blankByte a then c :: rest
    else (a, b) :: c :: rest

/-- The canonical form: addresses strictly rising and inside the address space, and no cell equal
to what an unlisted address reads as. -/
abbrev wf (m : Memory) : Prop :=
  m.Pairwise (fun c d => c.1 < d.1) ∧ ∀ c ∈ m, c.1 < Config.memSize ∧ c.2 ≠ blankByte c.1

/-- `MemRead(a, 1), MemRead(a + 1, 1), …`, `n` bytes (`20_memory.md` R36): none if an address is
outside memory. -/
def readBytes? (m : Memory) (a : Nat) : Nat → Option (List Byte)
  | 0 => some []
  | n + 1 =>
    if a < Config.memSize then (readBytes? m (a + 1) n).map (m.read a :: ·) else none

/-- `MemRead(a, 2)` (`20_memory.md` R36): the big-endian word at `a`; none if a byte of it is outside
memory. -/
def readWord? (m : Memory) (a : Nat) : Option Word :=
  if a + 1 < Config.memSize then some (composeWord (m.read a) (m.read (a + 1))) else none

/-- `MemWrite(a, 1, b)` for each byte at ascending addresses (`20_memory.md` R36): none if an address
is outside memory. -/
def writeBytes? (a : Nat) : List Byte → Memory → Option Memory
  | [], m => some m
  | b :: bs, m => if a < Config.memSize then writeBytes? (a + 1) bs (m.write a b) else none

end Memory

end Sys2Proof.Machine
end

