-- ==== Sys2Proof/Machine/Ops.lean ====
section
/-! DEFINITION. The named operations over registers, the program counter, the call stack and memory;
ending a step with an outcome, an error included (`60_exceptions.md` R110 to R120); and fetching. -/

namespace Sys2Proof.Machine

namespace State

/-! ## Reads -/

/-- `V[x]` (`00_scope.md` R6). -/
def reg (s : State) (x : RegNum) : Byte := s.v[x]

/-- `mem[a]` (`00_scope.md` R6). -/
def readByte (s : State) (a : Nat) : Byte := s.mem.read a

/-- `fb[x][y]`: the pixel at column `x`, row `y` (`10_state.md` R19). -/
def pixel (s : State) (x : Fin 64) (y : Fin 32) : Bool := s.fb[y][x]

/-! ## Writes of one piece of state -/

/-- `V[x] <- b`. -/
def setReg (s : State) (x : RegNum) (b : Byte) : State := { s with v := s.v.set x b }

/-- `I <- w`. -/
def setIndex (s : State) (w : Word) : State := { s with i := w }

/-- `pc <- target`, unchecked and unmasked (`40_control_transfer.md` R60 b). -/
def setPc (s : State) (target : Word) : State := { s with pc := target }

/-- `DT <- b`. -/
def setDelay (s : State) (b : Byte) : State := { s with dt := b }

/-- `ST <- b`. -/
def setSound (s : State) (b : Byte) : State := { s with st := b }

/-- `mem` replaced. -/
def setMem (s : State) (m : Memory) : State := { s with mem := m }

/-- The framebuffer replaced. -/
def setFb (s : State) (fb : Framebuffer) : State := { s with fb := fb }

/-- `dirty <- b`. -/
def setDirty (s : State) (b : Bool) : State := { s with dirty := b }

/-- `mode <- m`. -/
def setMode (s : State) (m : Mode) : State := { s with mode := m }

/-- `key[k] <- b`. -/
def setKeyLatch (s : State) (k : Fin 16) (b : Bool) : State := { s with key := s.key.set k b }

/-- One more random byte has been drawn (log entry 1). -/
def nextDraw (s : State) : State := { s with draws := s.draws + 1 }

/-- The outcome handed to the host (log entry 2). -/
def report (s : State) (o : StepOutcome) : State := { s with outcome := o }

/-! ## The program counter (`10_state.md` R14) -/

/-- `pc <- (pc + 2) mod 65536`: straight-line instructions. -/
def advance (s : State) : State := s.setPc (s.pc + 2)

/-- `pc + 4` if the condition holds, else `pc + 2`, modulo 65536: the skips
(`40_control_transfer.md` R60 c). -/
def skipIf (s : State) (c : Bool) : State := if c then s.setPc (s.pc + 4) else s.setPc (s.pc + 2)

/-! ## The call stack (`10_state.md` R15) -/

/-- `push(w)`: none when the stack is full. -/
def push? (s : State) (w : Word) : Option State :=
  if h : s.sp.val < 16 then
    some { s with stack := s.stack.set s.sp.val w h, sp := ⟨s.sp.val + 1, by omega⟩ }
  else none

/-- `pop()`: the value popped and the state after, in which the slot keeps its value; none when the
stack is empty. -/
def pop? (s : State) : Option (Word × State) :=
  if h : 0 < s.sp.val then
    some (s.stack[s.sp.val - 1]'(by omega), { s with sp := ⟨s.sp.val - 1, by omega⟩ })
  else none

/-! ## Blocks of registers (`42_index_memory.md` R91, R92) -/

/-- `V[0] .. V[x]`, ascending. -/
def regsUpTo (s : State) (x : RegNum) : List Byte := s.v.toList.take (x.val + 1)

/-- `V[k] <- b` for the bytes given, at ascending register numbers from `k`. -/
def setRegsFrom (k : Nat) : List Byte → State → State
  | [], s => s
  | b :: bs, s => setRegsFrom (k + 1) bs (if h : k < 16 then s.setReg ⟨k, h⟩ b else s)

end State

/-! ## Ending a step (`00_scope.md` R7, `60_exceptions.md` R110) -/

/-- The step ends with `Ok` in the state given. -/
def finish (s : State) : Result := .next (s.report .ok)

/-- `raise Kind(info)`: taking an error. Nothing is saved, no mode changes, no vector is fetched and
`pc` goes nowhere; all that happens is that the host is handed the outcome (`60_exceptions.md` R117,
R119). There is no return from an error (R120): the next step starts afresh. -/
def raise (e : ErrorKind) (s : State) : Result := .next (s.report (.error e))

/-- The step ends with `HaltRequested`, no state changed (`60_exceptions.md` R116). -/
def requestHalt (s : State) : Result := .next (s.report .haltRequested)

/-- `UnknownOpcode` under the policy in force: abort changes nothing, skip advances `pc` by 2; the
error is reported either way (`60_exceptions.md` R112). -/
def raiseUnknown (opcode : Word) (s : State) : Result :=
  match s.params.unknownOpcodePolicy with
  | .abort => raise (.unknownOpcode opcode) s
  | .skip => raise (.unknownOpcode opcode) s.advance

/-- The numeric code of an outcome (`60_exceptions.md` R110; the spec's own numbering, D18). -/
def outcomeCode : StepOutcome → Nat
  | .ok => 0
  | .haltRequested => 1
  | .error (.unknownOpcode _) => 2
  | .error .stackOverflow => 3
  | .error .stackUnderflow => 4
  | .error (.outOfBounds _) => 5
  | .error (.romTooLarge _) => 6

/-- The info value of an outcome as a number, where R110 gives it one. -/
def outcomeInfo : StepOutcome → Option Nat
  | .ok | .haltRequested | .error .stackOverflow | .error .stackUnderflow => none
  | .error (.unknownOpcode w) => some w.toNat
  | .error (.outOfBounds a) => some a
  | .error (.romTooLarge len) => some len

/-! ## Memory through an address (`20_memory.md` R35, R36) -/

/-- The bounds check of R35, before anything is written: an access of `n` bytes at the unbounded
address `a` raises `OutOfBounds` with its highest address if that is outside memory; an access of
zero bytes makes no check. -/
def checkBounds (a n : Nat) (s : State) (k : Result) : Result :=
  if 0 < n ∧ Config.memSize ≤ a + n - 1 then raise (.outOfBounds (a + n - 1)) s else k

/-- Check, then read the `n` bytes at `a` and go on with them. -/
def loadBytes (a n : Nat) (s : State) (k : List Byte → Result) : Result :=
  checkBounds a n s <|
    match s.mem.readBytes? a n with
    | some bs => k bs
    | none => .fault (.accessOutsideMemory a)

/-- Check, then store the bytes at `a` and go on with the state after. -/
def storeBytes (a : Nat) (bs : List Byte) (s : State) (k : State → Result) : Result :=
  checkBounds a bs.length s <|
    match Memory.writeBytes? a bs s.mem with
    | some m => k (s.setMem m)
    | none => .fault (.accessOutsideMemory a)

/-! ## Fetch (`30_encoding.md` R45) -/

/-- The fetch of every step: `OutOfBounds(pc)` if `pc + 1` is outside memory, else the big-endian word
at `pc`, with which the step goes on. It changes no state. -/
def fetchThen (s : State) (k : Word → Result) : Result :=
  if Config.memSize ≤ s.pc.toNat + 1 then raise (.outOfBounds s.pc.toNat) s
  else
    match s.mem.readWord? s.pc.toNat with
    | some w => k w
    | none => .fault (.accessOutsideMemory s.pc.toNat)

/-- The word stored where the next fetch reads it; a state whose fetch is out of range has no such
place and is left as it is (log entry 7). -/
def State.placeWord (s : State) (w : Word) : State :=
  match Memory.writeBytes? s.pc.toNat (wordBytes w) s.mem with
  | some m => s.setMem m
  | none => s

end Sys2Proof.Machine
end

