-- ==== Sys2Proof/Machine/Flags.lean ====
section
/-! DEFINITION. The flag computations of the instructions that report into V[0xF] (`10_state.md`
R12), all on the operands as they are at the start of the step, and the flag's write. -/

namespace Sys2Proof.Machine

/-- The number of the flag register (`00_scope.md` R4, FLAG_REG). -/
abbrev flagReg : RegNum := 0xF

/-- ADD Vx,Vy: the true sum exceeds 255 (`41_alu.md` R77). -/
def carryFlag (a b : Byte) : Bool := 255 < a.toNat + b.toNat

/-- SUB Vx,Vy: strictly greater, so 0 on equality (`41_alu.md` R78, `90_conflicts.md` C4). -/
def subFlag (a b : Byte) : Bool := b.toNat < a.toNat

/-- SUBN Vx,Vy: no borrow in `b - a`, so 1 on equality (`41_alu.md` R79, `90_conflicts.md` C4). -/
def subnFlag (a b : Byte) : Bool := a.toNat ≤ b.toNat

/-- SHR Vx: bit 0 before the shift (`41_alu.md` R80). -/
def shrFlag (a : Byte) : Bool := a.getLsbD 0

/-- SHL Vx: bit 7 before the shift (`41_alu.md` R81). -/
def shlFlag (a : Byte) : Bool := a.getLsbD 7

/-- A flag as a register value: 0x01 or 0x00 (`10_state.md` R12). -/
def flagByte (b : Bool) : Byte := if b then 1 else 0

/-- `V[0xF] <- flag`. -/
def State.setFlag (s : State) (b : Bool) : State := s.setReg flagReg (flagByte b)

/-- The result to `V[x]` first, the flag to `V[0xF]` second, so that with `x = 0xF` the flag stays
(`41_alu.md` R70 g). -/
def State.setResultAndFlag (s : State) (x : RegNum) (r : Byte) (f : Bool) : State :=
  (s.setReg x r).setFlag f

end Sys2Proof.Machine
end

