-- ==== Sys2Proof/Machine/Operands.lean ====
section
/-! DEFINITION. Operand forms: how a field or a register becomes a value, an address, a target or
an index (`30_encoding.md` R46, `42_index_memory.md` R86 to R90, `44_keypad_timer.md` R98, R100). -/

namespace Sys2Proof.Machine

/-- `zext_16(addr12)`: a target or an index value (`30_encoding.md` R46). -/
def addrWord (a : Addr12) : Word := a.zeroExtend 16

/-- `zext_16(V[x])`. -/
def byteWord (b : Byte) : Word := b.zeroExtend 16

/-- `addr12 + V[0]` modulo 65536: the target of JP V0 (`40_control_transfer.md` R68). -/
def offsetTarget (a : Addr12) (v0 : Byte) : Word := addrWord a + byteWord v0

/-- The effective address `I + 0` of an access through `I`, an unbounded integer
(`42_index_memory.md` R86); byte `k` of the access is at this plus `k`. -/
def State.indexAddress (s : State) : Nat := s.i.toNat

/-- `zext_16(v) * 5`: a glyph's address, the whole byte multiplied (`42_index_memory.md` R89). -/
def glyphAddress (b : Byte) : Word := byteWord b * 5

/-- Hundreds, tens, units, one digit a byte (`42_index_memory.md` R90). -/
def bcdDigits (b : Byte) : List Byte :=
  [ BitVec.ofNat 8 (b.toNat / 100), BitVec.ofNat 8 (b.toNat / 10 % 10), BitVec.ofNat 8 (b.toNat % 10) ]

/-- Go on with `key[k]` for the key number `k`; `OutOfBounds(k)` if there is no such latch
(`44_keypad_timer.md` R98, R99). -/
def withKey (k : Byte) (s : State) (f : Bool → Result) : Result :=
  if h : k.toNat < 16 then f (s.key[k.toNat]'h) else raise (.outOfBounds k.toNat) s

/-- The key numbers in the order they are scanned (`44_keypad_timer.md` R100 c). -/
def keyNumbers : List (Fin 16) := [0, 1, 2, 3, 4, 5, 6, 7, 8, 9, 10, 11, 12, 13, 14, 15]

/-- The lowest-numbered pressed key, if one is pressed (`44_keypad_timer.md` R100 c). -/
def State.lowestPressed (s : State) : Option (Fin 16) := keyNumbers.find? fun k => s.key[k]

end Sys2Proof.Machine
end

