-- ==== Sys2Proof/Machine/Alu.lean ====
section
/-! DEFINITION. Register load, arithmetic, logic, shift and random instructions (`41_alu.md`). All
are straight-line and raise nothing; byte arithmetic is modulo 256 (R70 a). -/

namespace Sys2Proof.Machine

/-- `V[x] <- r`, then on to the next instruction. -/
def finishReg (x : RegNum) (r : Byte) (s : State) : Result := finish (s.setReg x r).advance

/-- `V[x] <- r`, `V[0xF] <- f`, then on to the next instruction. -/
def finishRegFlag (x : RegNum) (r : Byte) (f : Bool) (s : State) : Result :=
  finish (s.setResultAndFlag x r f).advance

/-- LD Vx,NN (R71). -/
def execLdImm (x : RegNum) (nn : Byte) (s : State) : Result := finishReg x nn s

/-- ADD Vx,NN (R72): no carry is recorded. -/
def execAddImm (x : RegNum) (nn : Byte) (s : State) : Result := finishReg x (s.reg x + nn) s

/-- LD Vx,Vy (R73). -/
def execLdReg (x y : RegNum) (s : State) : Result := finishReg x (s.reg y) s

/-- OR Vx,Vy (R74): V[0xF] is left alone. -/
def execOrReg (x y : RegNum) (s : State) : Result := finishReg x (s.reg x ||| s.reg y) s

/-- AND Vx,Vy (R75). -/
def execAndReg (x y : RegNum) (s : State) : Result := finishReg x (s.reg x &&& s.reg y) s

/-- XOR Vx,Vy (R76). -/
def execXorReg (x y : RegNum) (s : State) : Result := finishReg x (s.reg x ^^^ s.reg y) s

/-- ADD Vx,Vy (R77). -/
def execAddReg (x y : RegNum) (s : State) : Result :=
  finishRegFlag x (s.reg x + s.reg y) (carryFlag (s.reg x) (s.reg y)) s

/-- SUB Vx,Vy (R78). -/
def execSubReg (x y : RegNum) (s : State) : Result :=
  finishRegFlag x (s.reg x - s.reg y) (subFlag (s.reg x) (s.reg y)) s

/-- SHR Vx (R80): `V[x]` shifted in place. -/
def execShr (x : RegNum) (s : State) : Result :=
  finishRegFlag x (s.reg x >>> 1) (shrFlag (s.reg x)) s

/-- SUBN Vx,Vy (R79): `V[x] <- V[y] - V[x]`. -/
def execSubnReg (x y : RegNum) (s : State) : Result :=
  finishRegFlag x (s.reg y - s.reg x) (subnFlag (s.reg x) (s.reg y)) s

/-- SHL Vx (R81): `V[x]` shifted in place. -/
def execShl (x : RegNum) (s : State) : Result :=
  finishRegFlag x (s.reg x <<< 1) (shlFlag (s.reg x)) s

/-- The effect of RND for the random byte given: `V[x] <- rnd & imm8` (R82). -/
def loadMasked (x : RegNum) (rnd nn : Byte) (s : State) : Result := finishReg x (rnd &&& nn) s

/-- RND Vx,NN (R82): the byte is the free input of this step (log entry 1). -/
def execRnd (x : RegNum) (nn : Byte) (s : State) : Result :=
  loadMasked x (Config.randomByte s.draws) nn s.nextDraw

end Sys2Proof.Machine
end

