-- ==== Sys2Proof/Machine/Control.lean ====
section
/-! DEFINITION. Control transfer instructions (`40_control_transfer.md`). -/

namespace Sys2Proof.Machine

/-- RET (R61): `StackUnderflow` on an empty stack (R114); else the popped value plus 2. -/
def execRet (s : State) : Result :=
  match s.pop? with
  | some (w, t) => finish (t.setPc (w + 2))
  | none => raise .stackUnderflow s

/-- JP NNN (R62). -/
def execJp (addr : Addr12) (s : State) : Result := finish (s.setPc (addrWord addr))

/-- CALL NNN (R63): `StackOverflow` on a full stack (R113); else this instruction's own address is
pushed. -/
def execCall (addr : Addr12) (s : State) : Result :=
  match s.push? s.pc with
  | some t => finish (t.setPc (addrWord addr))
  | none => raise .stackOverflow s

/-- SE Vx,NN (R64). -/
def execSeImm (x : RegNum) (nn : Byte) (s : State) : Result := finish (s.skipIf (s.reg x == nn))

/-- SNE Vx,NN (R65). -/
def execSneImm (x : RegNum) (nn : Byte) (s : State) : Result := finish (s.skipIf (s.reg x != nn))

/-- SE Vx,Vy (R66). -/
def execSeReg (x y : RegNum) (s : State) : Result := finish (s.skipIf (s.reg x == s.reg y))

/-- SNE Vx,Vy (R67). -/
def execSneReg (x y : RegNum) (s : State) : Result := finish (s.skipIf (s.reg x != s.reg y))

/-- JP V0,NNN (R68): always register 0, never masked. -/
def execJpV0 (addr : Addr12) (s : State) : Result := finish (s.setPc (offsetTarget addr (s.reg 0)))

end Sys2Proof.Machine
end

