-- ==== Sys2Proof/Machine/Display.lean ====
section
/-! DEFINITION. Display instructions (`43_display.md`): clear screen, and draw with XOR and
collision. -/

namespace Sys2Proof.Machine

/-- A framebuffer with every pixel 0. -/
def blankScreen : Framebuffer := Vector.replicate 32 (Vector.replicate 64 false)

/-- A drawing in progress: the framebuffer, and whether a set pixel has been hit. -/
structure Canvas where
  fb : Framebuffer
  collision : Bool
  deriving DecidableEq, Repr

/-- A 1 bit of the sprite at a pixel: `if fb[px][py] == 1: collision = 1`, then the XOR (R96). -/
def Canvas.hit (px : Fin 64) (py : Fin 32) (c : Canvas) : Canvas where
  fb := c.fb.set py (c.fb[py].set px (!c.fb[py][px]))
  collision := c.collision || c.fb[py][px]

/-- The column offsets of a sprite row, from the left. -/
def spriteColumns : List Nat := [0, 1, 2, 3, 4, 5, 6, 7]

/-- One column of one sprite row: bit 7 is column 0 (R94), a 0 bit leaves its pixel alone, and the
column wraps at 64. -/
def Canvas.drawColumn (b : Byte) (ox : Nat) (py : Fin 32) (c : Canvas) (col : Nat) : Canvas :=
  if b.getLsbD (7 - col) then c.hit (Fin.ofNat 64 (ox + col)) py else c

/-- One sprite row. -/
def Canvas.drawRow (b : Byte) (ox : Nat) (py : Fin 32) (c : Canvas) : Canvas :=
  spriteColumns.foldl (Canvas.drawColumn b ox py) c

/-- The rows of a sprite from row `oy` down, each wrapping at 32 (R94, R96). -/
def Canvas.drawRows (ox : Nat) : Nat → List Byte → Canvas → Canvas
  | _, [], c => c
  | oy, b :: bs, c => drawRows ox (oy + 1) bs (c.drawRow b ox (Fin.ofNat 32 oy))

/-- CLS (R95): `dirty` is set even if the screen was clear; V[0xF] is not written. -/
def execCls (s : State) : Result := finish ((s.setFb blankScreen).setDirty true).advance

/-- DRW Vx,Vy,N (R96): the origin and the rows are read before any write, the flag is written whether
or not anything collided, and `mode` is not read. -/
def execDrw (x y : RegNum) (n : Fin 16) (s : State) : Result :=
  loadBytes s.indexAddress n.val s fun bs =>
    let c := Canvas.drawRows ((s.reg x).toNat % 64) ((s.reg y).toNat % 32) bs ⟨s.fb, false⟩
    finish (((s.setFb c.fb).setFlag c.collision).setDirty true).advance

end Sys2Proof.Machine
end

