-- ==== Sys2Proof/Machine/IndexMemory.lean ====
section
/-! DEFINITION. Index register and memory instructions (`42_index_memory.md`). No load or store
modifies `I`, and none writes V[0xF] as a flag (R86). -/

namespace Sys2Proof.Machine

/-- LD I,NNN (R87). -/
def execLdI (addr : Addr12) (s : State) : Result := finish (s.setIndex (addrWord addr)).advance

/-- ADD I,Vx (R88): modulo 65536, no flag, no error. -/
def execAddI (x : RegNum) (s : State) : Result :=
  finish (s.setIndex (s.i + byteWord (s.reg x))).advance

/-- LD F,Vx (R89). -/
def execLdF (x : RegNum) (s : State) : Result :=
  finish (s.setIndex (glyphAddress (s.reg x))).advance

/-- LD B,Vx (R90). -/
def execLdB (x : RegNum) (s : State) : Result :=
  storeBytes s.indexAddress (bcdDigits (s.reg x)) s fun t => finish t.advance

/-- LD [I],Vx, register dump (R91). -/
def execStoreRegs (x : RegNum) (s : State) : Result :=
  storeBytes s.indexAddress (s.regsUpTo x) s fun t => finish t.advance

/-- LD Vx,[I], register load (R92). -/
def execLoadRegs (x : RegNum) (s : State) : Result :=
  loadBytes s.indexAddress (x.val + 1) s fun bs => finish (State.setRegsFrom 0 bs s).advance

end Sys2Proof.Machine
end

