-- ==== Sys2Proof/Machine/KeypadTimer.lean ====
section
/-! DEFINITION. Keypad and timer instructions (`44_keypad_timer.md`). -/

namespace Sys2Proof.Machine

/-- SKP Vx (R98): the latch's level is tested, not changed. -/
def execSkp (x : RegNum) (s : State) : Result :=
  withKey (s.reg x) s fun pressed => finish (s.skipIf pressed)

/-- SKNP Vx (R99). -/
def execSknp (x : RegNum) (s : State) : Result :=
  withKey (s.reg x) s fun pressed => finish (s.skipIf !pressed)

/-- LD Vx,K (R100): the lowest pressed key; with none pressed the step changes nothing, and the next
step fetches the same instruction. -/
def execLdVxK (x : RegNum) (s : State) : Result :=
  match s.lowestPressed with
  | some k => finish (s.setReg x (BitVec.ofNat 8 k.val)).advance
  | none => finish s

/-- LD Vx,DT (R101). -/
def execLdVxDT (x : RegNum) (s : State) : Result := finish (s.setReg x s.dt).advance

/-- LD DT,Vx (R102). -/
def execLdDTVx (x : RegNum) (s : State) : Result := finish (s.setDelay (s.reg x)).advance

/-- LD ST,Vx (R103). Without the sound timer this rule is void and the word is unknown
(`30_encoding.md` R53): the outcome is that of the unknown word (log entry 6, DEDUCED). -/
def execLdSTVx (x : RegNum) (s : State) : Result :=
  if s.params.hasSoundTimer then finish (s.setSound (s.reg x)).advance
  else raiseUnknown (encode (.ldSTVx x)) s

end Sys2Proof.Machine
end

