-- ==== Sys2Proof/Machine/System.lean ====
section
/-! DEFINITION. System instructions (`45_system.md`): the mode switches and EXIT. -/

namespace Sys2Proof.Machine

/-- LOW (R106). -/
def execLow (s : State) : Result := finish (s.setMode .standard).advance

/-- HIGH (R107). -/
def execHigh (s : State) : Result := finish (s.setMode .extended).advance

/-- EXIT (R108): no state changes, `pc` included; the outcome is `HaltRequested`. -/
def execExit (s : State) : Result := requestHalt s

end Sys2Proof.Machine
end

