-- ==== Sys2Proof/Machine/Cycle.lean ====
section
/-! DEFINITION. One instruction cycle, `STEP` in full (`60_exceptions.md` R131). -/

namespace Sys2Proof.Machine

/-- Decode the fetched word and run its one handler; an unknown word is reported under the policy
(R131 steps 3 to 5). -/
def runWord (w : Word) (s : State) : Result :=
  match decode s.params.hasSoundTimer w with
  | .instr i => exec i s
  | .unknown opcode => raiseUnknown opcode s

/-- Fetch, decode, execute: the fetch's error comes before the decoder's, and that before the
handler's (`60_exceptions.md` R118). -/
def cycle (s : State) : Result := fetchThen s fun w => runWord w s

end Sys2Proof.Machine
end

