-- ==== Sys2Proof/Machine/Step.lean ====
section
/-! DEFINITION. The step, and the placing of one word for it. -/

namespace Sys2Proof.Machine

/-- `STEP` (`60_exceptions.md` R131); the input `rnd` is the free draw of log entry 1. -/
def step : State → Host.Outcome State Fault Refusal := cycle

/-- `s` with a word stored where `step` fetches its next instruction; it stands for the load of a
program from outside (log entry 7). -/
def State.withFetchWord (s : State) (nbits w : Nat) : State := s.placeWord (tableWord nbits w)

end Sys2Proof.Machine
end

