-- ==== Sys2Proof/Machine/HostOps.lean ====
section
/-! DEFINITION. The host's operations (`60_exceptions.md` R123 to R126, `70_reset_and_hazards.md` R135
to R138), each an atomic operation on the state, and the protocol that puts them and the steps in
one order. -/

namespace Sys2Proof.Machine

namespace State

/-- `RESET` issued by the host (`70_reset_and_hazards.md` R135): every piece of the spec's state at its
reset value. The parameters are fixed and stay; the draw counter goes on, so that a reset does not
bring the same random bytes again (log entry 12, DESIGN CHOICE). -/
def hostReset (s : State) : State := { State.reset with params := s.params, draws := s.draws }

/-- `LOAD_ROM(bytes)` (`70_reset_and_hazards.md` R137): too long a program is an error with nothing
written; else the bytes go to 0x200 upward and nothing but memory is written. -/
def loadRom (bytes : List Byte) (s : State) : Result :=
  if Config.romMax < bytes.length then raise (.romTooLarge bytes.length) s
  else
    match Memory.writeBytes? Config.romBase bytes s.mem with
    | some m => finish (s.setMem m)
    | none => .fault (.accessOutsideMemory Config.romBase)

/-- A timer's tick: down by one unless it is 0 (`60_exceptions.md` R124). -/
def tick (b : Byte) : Byte := if b = 0 then 0 else b - 1

/-- `TIMER_TICK` (`60_exceptions.md` R124). -/
def timerTick (s : State) : State :=
  (s.setDelay (tick s.dt)).setSound (if s.params.hasSoundTimer then tick s.st else s.st)

/-- `SET_KEY(k, pressed)` (`60_exceptions.md` R125): a number above 15 is refused. -/
def setKey (k : Nat) (pressed : Bool) (s : State) : Result :=
  if h : k < 16 then .next (s.setKeyLatch ⟨k, h⟩ pressed) else .refused (.keyIndexOutOfRange k)

/-- `CLEAR_DIRTY` (`60_exceptions.md` R126). -/
def clearDirty (s : State) : State := s.setDirty false

end State

/-- What `READ_FB` returns (`60_exceptions.md` R126, R123). -/
structure FbView where
  /-- element `64 * y + x` is the pixel at column `x`, row `y` -/
  pixels : List Bool
  dirty : Bool
  mode : Mode
  /-- `ST > 0`, only with the sound timer (`10_state.md` R17) -/
  soundOn : Option Bool
  deriving DecidableEq, Repr

/-- `READ_FB` (`60_exceptions.md` R126): it changes nothing. -/
def State.readFb (s : State) : FbView where
  pixels := (List.range 2048).map fun e => s.pixel (Fin.ofNat 64 e) (Fin.ofNat 32 (e / 64))
  dirty := s.dirty
  mode := s.mode
  soundOn := if s.params.hasSoundTimer then some (decide (s.st ≠ 0)) else none

/-! ## The protocol (`60_exceptions.md` R123, R130, `70_reset_and_hazards.md` R138) -/

/-- The operations of `60_exceptions.md` R123. -/
inductive HostOp where
  | reset
  | loadRom (bytes : List Byte)
  | step
  | setKey (k : Nat) (pressed : Bool)
  | timerTick
  | readFb
  | clearDirty
  deriving DecidableEq, Repr

/-- CORE as the host drives it: its state, and whether a step was issued since the last reset, after
which `LOAD_ROM` has no meaning (log entry 5). -/
structure Session where
  core : State
  stepped : Bool
  deriving DecidableEq, Repr

/-- A session after `RESET` at power on. -/
def Session.start (p : Params) : Session := ⟨{ State.reset with params := p }, false⟩

/-- An operation's answer as a session's. -/
def Session.wrap (stepped : Bool) : Result → Host.Outcome Session Fault Refusal
  | .next t => .next ⟨t, stepped⟩
  | .fault r => .fault r
  | .refused r => .refused r

/-- One operation of the host. -/
def Session.act (op : HostOp) (u : Session) : Host.Outcome Session Fault Refusal :=
  match op with
  | .reset => .next ⟨u.core.hostReset, false⟩
  | .loadRom bytes =>
    if u.stepped then .refused .loadRomAfterStep else Session.wrap false (u.core.loadRom bytes)
  | .step => Session.wrap true (Machine.step u.core)
  | .setKey k pressed => Session.wrap u.stepped (u.core.setKey k pressed)
  | .timerTick => .next ⟨u.core.timerTick, u.stepped⟩
  | .readFb => .next u
  | .clearDirty => .next ⟨u.core.clearDirty, u.stepped⟩

/-- The operations in the order given; an operation that is refused changes nothing and the next one
is tried (`60_exceptions.md` R125, `70_reset_and_hazards.md` R137). -/
def Session.run : List HostOp → Session → Session
  | [], u => u
  | op :: ops, u =>
    match u.act op with
    | .next t => Session.run ops t
    | .fault _ => u
    | .refused _ => Session.run ops u

end Sys2Proof.Machine
end

