-- ==== Sys2Proof/Machine/Run.lean ====
section
/-! DEFINITION. A run and its end (`60_exceptions.md` R130): `RESET`, optionally one `LOAD_ROM`, then
steps interleaved with the host's other operations, ending at the first step whose outcome is not
`Ok`. -/

namespace Sys2Proof.Machine

/-- What may stand in a run after its start. `RESET` and `LOAD_ROM` are no such operations: they begin
a run (`60_exceptions.md` R130, `70_reset_and_hazards.md` R138). -/
inductive RunOp where
  | step
  | setKey (k : Nat) (pressed : Bool)
  | timerTick
  | readFb
  | clearDirty
  deriving DecidableEq, Repr

/-- The host's operation it is. -/
def RunOp.hostOp : RunOp → HostOp
  | .step => .step
  | .setKey k pressed => .setKey k pressed
  | .timerTick => .timerTick
  | .readFb => .readFb
  | .clearDirty => .clearDirty

/-- Where a run stands: going on, or at one of its two ends with the final state. -/
inductive Run where
  | going (u : Session)
  /-- the normal end: the last step's outcome was `HaltRequested` -/
  | halted (final : State)
  /-- the faulted end: the last step's outcome was this error -/
  | faulted (e : ErrorKind) (final : State)
  deriving DecidableEq, Repr

/-- Where a run stands after a step, by the step's outcome. -/
def Run.afterStep (t : State) : Run :=
  match t.outcome with
  | .ok => .going ⟨t, true⟩
  | .haltRequested => .halted t
  | .error e => .faulted e t

/-- The next operation of a run that goes on. Only a step can end the run; an operation that is refused
changes nothing (`60_exceptions.md` R125). -/
def Run.actOn (u : Session) (op : RunOp) : Run :=
  match u.act op.hostOp with
  | .next v =>
    match op with
    | .step => Run.afterStep v.core
    | .setKey _ _ | .timerTick | .readFb | .clearDirty => .going v
  | .fault _ | .refused _ => .going u

/-- The operations in the order given. What the host would issue after the end is no part of the
run. -/
def Run.perform : List RunOp → Run → Run
  | [], r => r
  | op :: ops, .going u => Run.perform ops (Run.actOn u op)
  | _ :: _, .halted s => .halted s
  | _ :: _, .faulted e s => .faulted e s

/-- The start of a run, from whatever state the host finds: `RESET`, and `LOAD_ROM` if there is a
program. A program that is too long leaves memory as reset left it; whether it was is the outcome in
the state, which the host must check (`70_reset_and_hazards.md` R137, R138). -/
def Run.start (s : State) : Option (List Byte) → Run
  | none => .going (Session.run [.reset] ⟨s, false⟩)
  | some rom => .going (Session.run [.reset, .loadRom rom] ⟨s, false⟩)

/-- A run. -/
def run (s : State) (rom : Option (List Byte)) (ops : List RunOp) : Run := Run.perform ops (Run.start s rom)

end Sys2Proof.Machine
end

