-- ==== Sys2Proof/Safety.lean ====
section
/-! DEFINITION. What claims about the machine are stated in: the invariants (`10_state.md` R25, R26),
bare steps, and what an instruction leaves unchanged. -/

namespace Sys2Proof.Machine

/-! ## Invariants -/

/-- The bound on `pc` of `10_state.md` R26. -/
def State.pcBounded (s : State) : Prop := s.pc.toNat ≤ 0x10FE

/-- Every live stack slot holds an address that was fetched from (`10_state.md` R26). -/
def State.liveSlotsBounded (s : State) : Prop :=
  ∀ k : Fin 16, k.val < s.sp.val → (s.stack[k]).toNat ≤ 0x0FFE

/-- Without `HAS_SOUND_TIMER` there is no `ST`; the field stays at 0 (`10_state.md` R17). -/
def State.soundTimerAbsent (s : State) : Prop := s.params.hasSoundTimer = false → s.st = 0

/-- What every step and every host operation keeps. That `sp` is 0 to 16, that a pixel is 0 or 1 and
that `DT` is 0 to 255 (`10_state.md` R25 a, c, d) the types of the fields say. -/
structure State.Inv (s : State) : Prop where
  memoryCanonical : Memory.wf s.mem
  pcBounded : s.pcBounded
  liveSlotsBounded : s.liveSlotsBounded
  soundTimerAbsent : s.soundTimerAbsent

/-! ## Bare steps -/

/-- The last outcome is not `Ok`. -/
def State.ended (s : State) : Bool := s.outcome != .ok

/-- At most `k` steps with no operation of the host between them, stopping after the first step whose
outcome is not `Ok`. It is the run of `60_exceptions.md` R130 (`Machine/Run.lean`) in which the host
only steps, as a function on states. -/
def runSteps : Nat → State → State
  | 0, s => s
  | k + 1, s =>
    match step s with
    | .next t => if t.ended then t else runSteps k t
    | .fault _ => s
    | .refused _ => s

/-- The state a run stands at. -/
def Run.core : Run → State
  | .going u => u.core
  | .halted s => s
  | .faulted _ s => s

/-! ## What a step is about to run -/

/-- The word the fetch reads: the byte at `pc` is the high one (`30_encoding.md` R45). -/
def State.fetchedWord (s : State) : Word :=
  composeWord (s.readByte s.pc.toNat) (s.readByte (s.pc.toNat + 1))

/-- The fetch is inside memory: both bytes of the instruction are (`30_encoding.md` R45). -/
def State.canFetch (s : State) : Prop := s.pc.toNat + 1 < 4096

/-- The next step runs the instruction `i`. -/
def Runs (s : State) (i : Instr) : Prop :=
  s.canFetch ∧ decode s.params.hasSoundTimer s.fetchedWord = .instr i

/-- The next step runs one of the instructions named as `spec/opcode_table.json` names them. -/
def RunsOneOf (s : State) (mnemonics : List String) : Prop :=
  ∃ i, Runs s i ∧ i.mnemonic ∈ mnemonics

/-- The handler's own `OutOfBounds` condition and its info value (`60_exceptions.md` R111). -/
def HandlerOutOfBounds (s : State) (a : Nat) : Instr → Prop
  | .drw _ _ n => 0 < n.val ∧ 4096 ≤ s.i.toNat + n.val - 1 ∧ a = s.i.toNat + n.val - 1
  | .ldB _ => 4096 ≤ s.i.toNat + 2 ∧ a = s.i.toNat + 2
  | .storeRegs x | .loadRegs x => 4096 ≤ s.i.toNat + x.val ∧ a = s.i.toNat + x.val
  | .skp x | .sknp x => 15 < (s.reg x).toNat ∧ a = (s.reg x).toNat
  | .cls | .ret | .exit | .low | .high | .jp _ | .call _ | .seImm _ _ | .sneImm _ _ | .seReg _ _
  | .ldImm _ _ | .addImm _ _ | .ldReg _ _ | .orReg _ _ | .andReg _ _ | .xorReg _ _ | .addReg _ _
  | .subReg _ _ | .shr _ | .subnReg _ _ | .shl _ | .sneReg _ _ | .ldI _ | .jpV0 _ | .rnd _ _
  | .ldVxDT _ | .ldVxK _ | .ldDTVx _ | .addI _ | .ldF _ | .ldSTVx _ => False

/-- A 1 bit of the sprite of DRW Vx,Vy,N falls on pixel `(px, py)`: row `r` of it is the byte at
`I + r`, column `c` its bit `7 - c`, and both coordinates wrap (`43_display.md` R94, R96). -/
def SpriteHits (s : State) (x y : RegNum) (n : Fin 16) (px : Fin 64) (py : Fin 32) : Prop :=
  ∃ r c : Nat, r < n.val ∧ c < 8 ∧ (s.readByte (s.i.toNat + r)).getLsbD (7 - c) = true ∧
    px.val = ((s.reg x).toNat % 64 + c) % 64 ∧ py.val = ((s.reg y).toNat % 32 + r) % 32

/-- Host operations issued after the first step of a run, and steps (`60_exceptions.md` R130). -/
def HostOp.duringRun : HostOp → Bool
  | .step | .setKey _ _ | .timerTick | .readFb | .clearDirty => true
  | .reset | .loadRom _ => false

/-! ## Frames -/

/-- The pieces of state beside the registers, `pc` and the outcome. -/
inductive Part where
  | index
  | stack
  | delayTimer
  | soundTimer
  | keys
  | framebuffer
  | dirty
  | mode
  | memory
  | params
  | draws
  deriving DecidableEq, Repr

/-- That piece is the same in both states; of memory, every byte reads the same. -/
def Unchanged (s t : State) : Part → Prop
  | .index => t.i = s.i
  | .stack => t.sp = s.sp ∧ t.stack = s.stack
  | .delayTimer => t.dt = s.dt
  | .soundTimer => t.st = s.st
  | .keys => t.key = s.key
  | .framebuffer => ∀ x y, t.pixel x y = s.pixel x y
  | .dirty => t.dirty = s.dirty
  | .mode => t.mode = s.mode
  | .memory => ∀ a, t.readByte a = s.readByte a
  | .params => t.params = s.params
  | .draws => t.draws = s.draws

/-- Every piece but those listed is the same in both states. -/
def SameBut (parts : List Part) (s t : State) : Prop := ∀ p, p ∉ parts → Unchanged s t p

/-- Every register but those listed is the same in both states. -/
def RegsBut (regs : List RegNum) (s t : State) : Prop := ∀ k, k ∉ regs → t.reg k = s.reg k

/-- The instruction completes from `s`: it answers a next state with outcome `Ok`, in which all but
the registers and the pieces listed (and `pc`) is as before, and `P` holds. -/
def CompletesWith (i : Instr) (s : State) (regs : List RegNum) (parts : List Part)
    (P : State → Prop) : Prop :=
  ∃ t, exec i s = .next t ∧ t.outcome = .ok ∧ RegsBut regs s t ∧ SameBut parts s t ∧ P t

/-- The instruction ends with the error and leaves no trace: the state is as it was, the error is
handed to the host (`60_exceptions.md` R117). -/
def FailsWith (i : Instr) (s : State) (e : ErrorKind) : Prop :=
  exec i s = .next (s.report (.error e))

end Sys2Proof.Machine
end

