-- ==== Sys2Proof/Certificates/Slice0/Obligations.lean ====
section
/-! DEFINITION. The statements for the provers. Each docstring names the rules of `spec/` it is about;
where one rests on a decision or an inference that the spec marks as its own, it says so. -/

open Sys2Proof Sys2Proof.Machine

/-! ## Encoding -/

/-- Decode and encode agree: the canonical word of every instruction the machine has decodes to that
instruction, every operand at every value (`30_encoding.md` R46 to R50; numbers from D5). -/
def Obligations.DecodeOfEncodeIsTheInstruction : Prop :=
  ∀ (st : Bool) (i : Instr), i.wellFormed st = true → decode st (encode i) = .instr i

/-- The other direction: what a word decodes to is an instruction of the machine, and its canonical
word is the word with the bits R50 calls ignored set to 0 (`30_encoding.md` R50, D4; 0 for the `y`
bits of SHR and SHL is the model's choice, log entry 10). -/
def Obligations.EncodeOfDecodeClearsIgnoredBits : Prop :=
  ∀ (st : Bool) (w : Word) (i : Instr), decode st w = .instr i →
    i.wellFormed st = true ∧ encode i = w &&& ~~~ i.ignoredBits

/-- Every row of the opcode map selects its instruction exactly when `opcode & mask == match`, the
last row only with the sound timer (`30_encoding.md` R49, the spec's decisions D4 and D5). -/
def Obligations.OpcodeMapSelectsByMaskAndMatch : Prop :=
  ∀ (st : Bool) (w : Word), ∀ row ∈ opcodeMap, (row.mnemonic = "LD_ST_Vx" → st = true) →
    (w &&& row.mask = row.value ↔ ∃ i, decode st w = .instr i ∧ i.mnemonic = row.mnemonic)

/-- The unknown words are exactly those listed by class; every other word decodes to an instruction
(`30_encoding.md` R51, R53). -/
def Obligations.UnknownWordsAreExactlyThoseListed : Prop :=
  ∀ (st : Bool) (w : Word),
    (listedUnknown st w = true → decode st w = .unknown w) ∧
    (listedUnknown st w = false → ∃ i, decode st w = .instr i)

/-- The fields are the masked and shifted bits of the opcode, they overlap as said, and a field that
feeds a wider value is zero-extended (`30_encoding.md` R46). -/
def Obligations.FieldsAreMaskedAndShiftedBits : Prop :=
  ∀ w : Word,
    (fieldAddr w).toNat = (w &&& 0x0FFF).toNat ∧ (fieldNN w).toNat = (w &&& 0x00FF).toNat ∧
    (fieldN w).val = (w &&& 0x000F).toNat ∧ (fieldX w).val = ((w &&& 0x0F00) >>> 8).toNat ∧
    (fieldY w).val = ((w &&& 0x00F0) >>> 4).toNat ∧ (fieldTop w).toNat = ((w &&& 0xF000) >>> 12).toNat ∧
    (fieldAddr w).toNat = (fieldX w).val * 256 + (fieldY w).val * 16 + (fieldN w).val ∧
    (fieldNN w).toNat = (fieldY w).val * 16 + (fieldN w).val ∧
    (addrWord (fieldAddr w)).toNat = (fieldAddr w).toNat

/-- A few words of the spec's examples decode to the instructions they stand for
(`95_test_vectors.md` T1, P2, P3, P5; `30_encoding.md` R50). -/
def Obligations.SampleWordsDecode : Prop :=
  decode false 0x600A = .instr (.ldImm 0x0 0x0A) ∧ decode false 0x7005 = .instr (.addImm 0x0 0x05) ∧
  decode false 0x220A = .instr (.call 0x20A) ∧ decode false 0x8AB4 = .instr (.addReg 0xA 0xB) ∧
  decode false 0xF265 = .instr (.loadRegs 0x2) ∧ decode false 0xD011 = .instr (.drw 0x0 0x1 0x1) ∧
  decode false 0x0FEE = .instr .ret ∧ decode false 0x0000 = .unknown 0x0000 ∧
  decode false 0xF118 = .unknown 0xF118 ∧ decode true 0xF118 = .instr (.ldSTVx 0x1)

/-! ## The step -/

/-- A step fetches, decodes and runs exactly one handler: a fetch outside memory is an error, and
when the word fetched big-endian at `pc` decodes to an instruction the step is that instruction's
`exec`, with nothing around it; it is an instruction of the machine (`60_exceptions.md` R131). -/
def Obligations.StepRunsTheDecodedInstruction : Prop :=
  ∀ s : State,
    (¬ s.canFetch → step s = .next (s.report (.error (.outOfBounds s.pc.toNat)))) ∧
    (∀ i, Runs s i → step s = exec i s ∧ i.wellFormed s.params.hasSoundTimer = true) ∧
    s.fetchedWord.toNat =
      (s.readByte s.pc.toNat).toNat * 256 + (s.readByte (s.pc.toNat + 1)).toNat

/-- An unknown word is reported under the policy: abort changes nothing, skip advances `pc` by 2 and
nothing else (`60_exceptions.md` R112; the two policies are D3 of the spec). -/
def Obligations.UnknownOpcodeFollowsThePolicy : Prop :=
  ∀ s : State, s.canFetch → decode s.params.hasSoundTimer s.fetchedWord = .unknown s.fetchedWord →
    (s.params.unknownOpcodePolicy = .abort →
      step s = .next (s.report (.error (.unknownOpcode s.fetchedWord)))) ∧
    (s.params.unknownOpcodePolicy = .skip →
      step s = .next ((s.setPc (s.pc + 2)).report (.error (.unknownOpcode s.fetchedWord))))

/-- Every step from every state answers a next state: no memory primitive is ever applied outside the
4096 bytes, and no instruction is refused (`10_state.md` R25 b, `20_memory.md` R36,
`60_exceptions.md` R131 "a total function"). -/
def Obligations.StepAlwaysAnswersNext : Prop := ∀ s : State, ∃ t, step s = .next t

/-- Every step keeps the invariant: memory canonical, `pc` and the live stack slots bounded, the
absent sound timer at 0 (`10_state.md` R25, R26, R17; R26 is the spec's own derivation, the
canonical form the model's, log entry 8). -/
def Obligations.StepKeepsInvariant : Prop :=
  ∀ s t : State, s.Inv → step s = .next t → t.Inv

/-- The machine right after reset meets the invariant, whatever its parameters. -/
def Obligations.ResetMeetsInvariant : Prop :=
  ∀ p : Params, State.Inv { State.reset with params := p }

/-- Every run of host operations and steps, in any order, keeps the invariant from the start of a
session (`10_state.md` R25 "kept by every step and every host operation"). The order in which the host
may issue them is the model's protocol (log entry 5), the canonical form the model's (log entry 8), the
absent sound timer's 0 too (log entry 6). -/
def Obligations.HostOperationsKeepInvariant : Prop :=
  ∀ (p : Params) (ops : List HostOp), (Session.run ops (Session.start p)).core.Inv

/-- A step that ends in an error has changed no state, except `pc` under the skip policy for an
unknown opcode (`60_exceptions.md` R117). -/
def Obligations.ErrorLeavesNoTrace : Prop :=
  ∀ (s t : State) (e : ErrorKind), step s = .next t → t.outcome = .error e →
    t = s.report (.error e) ∨
    (s.params.unknownOpcodePolicy = .skip ∧ (∃ w, e = .unknownOpcode w) ∧
      t = (s.setPc (s.pc + 2)).report (.error e))

/-- `OutOfBounds` is raised by a step in exactly the cases of the table of `60_exceptions.md` R111,
with the info value given there (the key rows are the spec's decision D11). -/
def Obligations.OutOfBoundsExactlyAsListed : Prop :=
  ∀ (s t : State) (a : Nat), step s = .next t →
    (t.outcome = .error (.outOfBounds a) ↔
      (¬ s.canFetch ∧ a = s.pc.toNat) ∨ ∃ i, Runs s i ∧ HandlerOutOfBounds s a i)

/-- `HaltRequested` is the outcome of EXIT and of nothing else, and it changes nothing, so stepping
again halts again (`60_exceptions.md` R116; `45_system.md` R108, that `pc` stays is D17). -/
def Obligations.HaltRequestedByExitAlone : Prop :=
  ∀ s t : State, step s = .next t →
    (t.outcome = .haltRequested ↔ Runs s .exit) ∧
    (t.outcome = .haltRequested → t = s.report .haltRequested ∧ step t = .next t)

/-- No instruction reads `ST`, `dirty`, `mode` or the last outcome: two states that differ only in
these step to states that differ only in these, with the same outcome (`10_state.md` R17, R20, R21,
R23; that no rule reads `mode` is the spec's decision D15). -/
def Obligations.StepReadsNoOutputOnlyState : Prop :=
  ∀ (s t : State) (st : Byte) (d : Bool) (m : Mode) (o : StepOutcome), step s = .next t →
    ∃ st' d' m', step { s with st := st, dirty := d, mode := m, outcome := o } =
      .next { t with st := st', dirty := d', mode := m' }

/-- Each piece of state is written only by the instructions `10_state.md` R10 lists as its writers; a
step writes no key latch and no parameter, and sets `dirty` but never clears it (R10, R18, R20,
R22). -/
def Obligations.EachPieceWrittenByItsWritersAlone : Prop :=
  ∀ s t : State, step s = .next t →
    t.key = s.key ∧ t.params = s.params ∧ (s.dirty = true → t.dirty = true) ∧
    (t.i ≠ s.i → RunsOneOf s ["LD_I_NNN", "ADD_I_Vx", "LD_F_Vx"]) ∧
    (t.stack ≠ s.stack → RunsOneOf s ["CALL_NNN"]) ∧
    (t.sp ≠ s.sp → RunsOneOf s ["CALL_NNN", "RET"]) ∧
    (t.dt ≠ s.dt → RunsOneOf s ["LD_DT_Vx"]) ∧
    (t.st ≠ s.st → RunsOneOf s ["LD_ST_Vx"]) ∧
    (t.fb ≠ s.fb → RunsOneOf s ["CLS", "DRW_Vx_Vy_N"]) ∧
    (t.dirty ≠ s.dirty → RunsOneOf s ["CLS", "DRW_Vx_Vy_N"]) ∧
    (t.mode ≠ s.mode → RunsOneOf s ["LOW", "HIGH"]) ∧
    (t.mem ≠ s.mem → RunsOneOf s ["LD_B_Vx", "LD__I__Vx"]) ∧
    (t.draws ≠ s.draws → RunsOneOf s ["RND_Vx_NN"])

/-- Under abort an error is repeated for ever: whatever further steps, key events, ticks, reads and
clears the host issues, a step gives the same error again (`60_exceptions.md` R120, the spec's own
derivation). -/
def Obligations.ErrorRepeatsWhateverTheHostDoes : Prop :=
  ∀ (s t : State) (e : ErrorKind) (ops : List HostOp),
    s.params.unknownOpcodePolicy = .abort → step s = .next t → t.outcome = .error e →
    (∀ op ∈ ops, op.duringRun = true) →
    ∃ r, step (Session.run ops ⟨t, true⟩).core = .next r ∧ r.outcome = .error e

/-- A store is seen by the very next fetch: when LD [I],Vx stores two or more registers at the address
of the instruction after it, the next fetch reads `V[0], V[1]` as its word (`20_memory.md` R41, R32;
`95_test_vectors.md` P9). -/
def Obligations.StoredWordIsFetchedByTheNextStep : Prop :=
  ∀ (s : State) (x : RegNum), Memory.wf s.mem → 1 ≤ x.val → s.i = s.pc + 2 →
    s.i.toNat + x.val < 4096 →
    ∃ t, exec (.storeRegs x) s = .next t ∧ t.canFetch ∧
      t.fetchedWord = composeWord (s.reg 0) (s.reg 1)

/-! ## Control transfer -/

/-- JP NNN and JP V0,NNN set `pc` to the target and change nothing else; the sum with `V[0]` is not
masked (`40_control_transfer.md` R62, R68). -/
def Obligations.JumpsSetPcToTheTarget : Prop :=
  ∀ (s : State) (a : Addr12),
    CompletesWith (.jp a) s [] [] (fun t => t.pc.toNat = a.toNat) ∧
    CompletesWith (.jpV0 a) s [] [] (fun t => t.pc.toNat = a.toNat + (s.reg 0).toNat)

/-- CALL NNN pushes its own address, and with a full stack raises `StackOverflow` with nothing
changed (`40_control_transfer.md` R63, `60_exceptions.md` R113). -/
def Obligations.CallPushesItsOwnAddress : Prop :=
  ∀ (s : State) (a : Addr12),
    (s.sp.val < 16 → CompletesWith (.call a) s [] [.stack] (fun t =>
      t.pc.toNat = a.toNat ∧ t.sp.val = s.sp.val + 1 ∧
      ∀ k : Fin 16, t.stack[k] = if k.val = s.sp.val then s.pc else s.stack[k])) ∧
    (s.sp.val = 16 → FailsWith (.call a) s .stackOverflow)

/-- RET pops and goes to the popped address plus 2, the slot keeping its value; with an empty stack
it raises `StackUnderflow` with nothing changed (`40_control_transfer.md` R61,
`60_exceptions.md` R114). -/
def Obligations.ReturnPopsAndAddsTwo : Prop :=
  ∀ s : State,
    (∀ k : Fin 16, s.sp.val = k.val + 1 → CompletesWith .ret s [] [.stack] (fun t =>
      t.sp.val = k.val ∧ t.stack = s.stack ∧ t.pc.toNat = ((s.stack[k]).toNat + 2) % 65536)) ∧
    (s.sp.val = 0 → FailsWith .ret s .stackUnderflow)

/-- A call and the return that matches it leave `pc` just after the call (`95_test_vectors.md` S3):
the return may run in any later state whose stack is as the call left it. -/
def Obligations.ReturnComesBackAfterTheCall : Prop :=
  ∀ (s : State) (a : Addr12), s.sp.val < 16 →
    ∃ t, exec (.call a) s = .next t ∧ t.outcome = .ok ∧
      ∀ u : State, u.sp = t.sp → u.stack = t.stack →
        ∃ r, exec .ret u = .next r ∧ r.outcome = .ok ∧ r.pc = s.pc + 2 ∧ r.sp = s.sp

/-- The four compare-and-skip instructions advance `pc` by 4 if the condition holds, else by 2, and
change nothing else (`40_control_transfer.md` R64, R65, R66, R67). -/
def Obligations.SkipsAdvanceByFourOrTwo : Prop :=
  ∀ (s : State) (x y : RegNum) (nn : Byte),
    CompletesWith (.seImm x nn) s [] []
      (fun t => t.pc = if s.reg x = nn then s.pc + 4 else s.pc + 2) ∧
    CompletesWith (.sneImm x nn) s [] []
      (fun t => t.pc = if s.reg x ≠ nn then s.pc + 4 else s.pc + 2) ∧
    CompletesWith (.seReg x y) s [] []
      (fun t => t.pc = if s.reg x = s.reg y then s.pc + 4 else s.pc + 2) ∧
    CompletesWith (.sneReg x y) s [] []
      (fun t => t.pc = if s.reg x ≠ s.reg y then s.pc + 4 else s.pc + 2)

/-! ## Registers and arithmetic -/

/-- LD Vx,NN and ADD Vx,NN: the register, modulo 256, and no flag, not even on overflow
(`41_alu.md` R71, R72). -/
def Obligations.ImmediateLoadAndAdd : Prop :=
  ∀ (s : State) (x : RegNum) (nn : Byte),
    CompletesWith (.ldImm x nn) s [x] [] (fun t => t.pc = s.pc + 2 ∧ t.reg x = nn) ∧
    CompletesWith (.addImm x nn) s [x] [] (fun t => t.pc = s.pc + 2 ∧
      (t.reg x).toNat = ((s.reg x).toNat + nn.toNat) % 256)

/-- Adding `b` and then `256 - b` restores the register and touches no other, the flag register
included (`95_test_vectors.md` S1, `41_alu.md` R72, `90_conflicts.md` C10). -/
def Obligations.AddImmediateWrapsAround : Prop :=
  ∀ (s : State) (x : RegNum) (b c : Byte), b.toNat + c.toNat = 256 →
    ∃ t, exec (.addImm x b) s = .next t ∧ ∃ u, exec (.addImm x c) t = .next u ∧
      (∀ k, u.reg k = s.reg k) ∧ u.pc = s.pc + 4

/-- Copy, OR, AND, XOR write `V[x]` only and leave the flag register alone (`41_alu.md` R73 to R76;
that the destination is `V[x]` is the spec's decision D8). -/
def Obligations.CopyAndLogicWriteTheDestinationOnly : Prop :=
  ∀ (s : State) (x y : RegNum),
    CompletesWith (.ldReg x y) s [x] [] (fun t => t.pc = s.pc + 2 ∧ t.reg x = s.reg y) ∧
    CompletesWith (.orReg x y) s [x] [] (fun t => t.pc = s.pc + 2 ∧ t.reg x = s.reg x ||| s.reg y) ∧
    CompletesWith (.andReg x y) s [x] [] (fun t => t.pc = s.pc + 2 ∧ t.reg x = s.reg x &&& s.reg y) ∧
    CompletesWith (.xorReg x y) s [x] [] (fun t => t.pc = s.pc + 2 ∧ t.reg x = s.reg x ^^^ s.reg y)

/-- ADD Vx,Vy: the sum modulo 256 to `V[x]` and the carry to `V[0xF]`; with `x = 0xF` the carry stays
(`41_alu.md` R77; the write order is the spec's decision D6, the destination D8). -/
def Obligations.AddRegistersReportsCarry : Prop :=
  ∀ (s : State) (x y : RegNum),
    CompletesWith (.addReg x y) s [x, 0xF] [] (fun t => t.pc = s.pc + 2 ∧
      (x ≠ 0xF → (t.reg x).toNat = ((s.reg x).toNat + (s.reg y).toNat) % 256) ∧
      t.reg 0xF = if (s.reg x).toNat + (s.reg y).toNat > 255 then 0x01 else 0x00)

/-- SUB and SUBN: the difference modulo 256 to `V[x]`; SUB's flag is 1 exactly when `V[x] > V[y]`,
SUBN's when `V[y] >= V[x]`, so they differ on equality; with `x = 0xF` the flag stays
(`41_alu.md` R78, R79, `90_conflicts.md` C4; write order D6, destination D8). -/
def Obligations.SubtractionFlagsDifferOnEquality : Prop :=
  ∀ (s : State) (x y : RegNum),
    CompletesWith (.subReg x y) s [x, 0xF] [] (fun t => t.pc = s.pc + 2 ∧
      (x ≠ 0xF → (t.reg x).toNat = ((s.reg x).toNat + 256 - (s.reg y).toNat) % 256) ∧
      t.reg 0xF = if (s.reg x).toNat > (s.reg y).toNat then 0x01 else 0x00) ∧
    CompletesWith (.subnReg x y) s [x, 0xF] [] (fun t => t.pc = s.pc + 2 ∧
      (x ≠ 0xF → (t.reg x).toNat = ((s.reg y).toNat + 256 - (s.reg x).toNat) % 256) ∧
      t.reg 0xF = if (s.reg y).toNat ≥ (s.reg x).toNat then 0x01 else 0x00)

/-- SHR and SHL shift `V[x]` by one place and report the bit shifted out; with `x = 0xF` the flag
stays (`41_alu.md` R80, R81; operand D7, write order D6). -/
def Obligations.ShiftsReportTheBitShiftedOut : Prop :=
  ∀ (s : State) (x : RegNum),
    CompletesWith (.shr x) s [x, 0xF] [] (fun t => t.pc = s.pc + 2 ∧
      (x ≠ 0xF → (t.reg x).toNat = (s.reg x).toNat / 2) ∧
      (t.reg 0xF).toNat = (s.reg x).toNat % 2) ∧
    CompletesWith (.shl x) s [x, 0xF] [] (fun t => t.pc = s.pc + 2 ∧
      (x ≠ 0xF → (t.reg x).toNat = (s.reg x).toNat * 2 % 256) ∧
      (t.reg 0xF).toNat = (s.reg x).toNat / 128)

/-- RND Vx,NN: `V[x]` has no bit that the mask has not, it is the step's random byte under the mask,
and one byte is consumed (`41_alu.md` R82, the spec's decision D21; the random byte is the free value
of log entry 1, so this holds whatever it is). -/
def Obligations.RandomByteUnderMask : Prop :=
  ∀ (s : State) (x : RegNum) (nn : Byte),
    CompletesWith (.rnd x nn) s [x] [.draws] (fun t => t.pc = s.pc + 2 ∧
      t.reg x = Config.randomByte s.draws &&& nn ∧ t.reg x &&& ~~~nn = 0 ∧
      t.draws = s.draws + 1)

/-! ## Index register and memory -/

/-- LD I,NNN (`42_index_memory.md` R87). -/
def Obligations.LoadIndexZeroExtends : Prop :=
  ∀ (s : State) (a : Addr12),
    CompletesWith (.ldI a) s [] [.index] (fun t => t.pc = s.pc + 2 ∧ t.i.toNat = a.toNat)

/-- ADD I,Vx adds unmasked, modulo 65536, with no flag and no error; LD F,Vx multiplies the whole
byte by 5 (`42_index_memory.md` R88, R89; the wrap is the spec's decision D9, no mask D28). -/
def Obligations.IndexArithmeticIsUnmasked : Prop :=
  ∀ (s : State) (x : RegNum),
    CompletesWith (.addI x) s [] [.index] (fun t => t.pc = s.pc + 2 ∧
      t.i.toNat = (s.i.toNat + (s.reg x).toNat) % 65536) ∧
    CompletesWith (.ldF x) s [] [.index] (fun t => t.pc = s.pc + 2 ∧
      t.i.toNat = (s.reg x).toNat * 5)

/-- LD B,Vx stores hundreds, tens, units at `I`, `I + 1`, `I + 2` and changes nothing else; outside
memory it raises `OutOfBounds(I + 2)` with nothing written (`42_index_memory.md` R90). -/
def Obligations.BcdStoresThreeDigits : Prop :=
  ∀ (s : State) (x : RegNum),
    (Memory.wf s.mem → s.i.toNat + 2 < 4096 →
      CompletesWith (.ldB x) s [] [.memory] (fun t => t.pc = s.pc + 2 ∧
        (t.readByte s.i.toNat).toNat = (s.reg x).toNat / 100 ∧
        (t.readByte (s.i.toNat + 1)).toNat = (s.reg x).toNat / 10 % 10 ∧
        (t.readByte (s.i.toNat + 2)).toNat = (s.reg x).toNat % 10 ∧
        ∀ a, a < s.i.toNat ∨ s.i.toNat + 2 < a → t.readByte a = s.readByte a)) ∧
    (4096 ≤ s.i.toNat + 2 → FailsWith (.ldB x) s (.outOfBounds (s.i.toNat + 2)))

/-- LD [I],Vx stores `V[0]` to `V[x]` at `I` upward and changes nothing else; outside memory it raises
`OutOfBounds(I + x)` with nothing written (`42_index_memory.md` R91, R86; that `I` stays is the
spec's decision D24, the check D10). -/
def Obligations.RegisterDumpStoresUpToX : Prop :=
  ∀ (s : State) (x : RegNum),
    (Memory.wf s.mem → s.i.toNat + x.val < 4096 →
      CompletesWith (.storeRegs x) s [] [.memory] (fun t => t.pc = s.pc + 2 ∧
        (∀ k : RegNum, k ≤ x → t.readByte (s.i.toNat + k.val) = s.reg k) ∧
        ∀ a, a < s.i.toNat ∨ s.i.toNat + x.val < a → t.readByte a = s.readByte a)) ∧
    (4096 ≤ s.i.toNat + x.val → FailsWith (.storeRegs x) s (.outOfBounds (s.i.toNat + x.val)))

/-- LD Vx,[I] loads `V[0]` to `V[x]` and no register above, and changes nothing else; outside memory it
raises `OutOfBounds(I + x)` with no register changed (`42_index_memory.md` R92, R86; D24, D10). -/
def Obligations.RegisterLoadFillsUpToX : Prop :=
  ∀ (s : State) (x : RegNum),
    (s.i.toNat + x.val < 4096 →
      ∃ t, exec (.loadRegs x) s = .next t ∧ t.outcome = .ok ∧ SameBut [] s t ∧ t.pc = s.pc + 2 ∧
        ∀ k : RegNum, t.reg k = if k ≤ x then s.readByte (s.i.toNat + k.val) else s.reg k) ∧
    (4096 ≤ s.i.toNat + x.val → FailsWith (.loadRegs x) s (.outOfBounds (s.i.toNat + x.val)))

/-- What a dump stored a load brings back: a load of the same registers in any state with that memory
and that index restores them (`42_index_memory.md` R91, R92, `20_memory.md` R39 b). -/
def Obligations.LoadBringsBackWhatDumpStored : Prop :=
  ∀ (s : State) (x : RegNum), Memory.wf s.mem → s.i.toNat + x.val < 4096 →
    ∃ t, exec (.storeRegs x) s = .next t ∧
      ∀ u : State, u.mem = t.mem → u.i = s.i →
        ∃ r, exec (.loadRegs x) u = .next r ∧ r.outcome = .ok ∧
          ∀ k : RegNum, k ≤ x → r.reg k = s.reg k

/-- The canonical form is canonical: two memories in it that read the same at every address are the
same data (log entry 8). -/
def Obligations.CanonicalMemoriesReadingAlikeAreEqual : Prop :=
  ∀ m n : Memory, m.wf → n.wf → (∀ a, a < 4096 → m.read a = n.read a) → m = n

/-! ## Display -/

/-- CLS clears every pixel and sets `dirty`; nothing else changes but `pc` (`43_display.md` R95). -/
def Obligations.ClearScreenClearsEveryPixel : Prop :=
  ∀ s : State, CompletesWith .cls s [] [.framebuffer, .dirty] (fun t => t.pc = s.pc + 2 ∧
    t.dirty = true ∧ ∀ x y, t.pixel x y = false)

/-- DRW flips exactly the pixels a 1 bit of the sprite falls on, wrapping at both edges, in both modes;
`V[0xF]` is 1 exactly if one of them was set, else 0; `dirty` is set. With a row outside memory it
raises `OutOfBounds(I + N - 1)` with nothing drawn; with `N = 0` it reads nothing (`43_display.md`
R94, R96; the bit order is the spec's D14, the cleared flag D13, the ignored mode D15, the check
D10). -/
def Obligations.DrawFlipsExactlyTheSpritePixels : Prop :=
  ∀ (s : State) (x y : RegNum) (n : Fin 16),
    (n.val = 0 ∨ s.i.toNat + n.val - 1 < 4096 →
      CompletesWith (.drw x y n) s [0xF] [.framebuffer, .dirty] (fun t => t.pc = s.pc + 2 ∧
        t.dirty = true ∧
        (∀ px py, SpriteHits s x y n px py → t.pixel px py = !s.pixel px py) ∧
        (∀ px py, ¬ SpriteHits s x y n px py → t.pixel px py = s.pixel px py) ∧
        ((∃ px py, SpriteHits s x y n px py ∧ s.pixel px py = true) → t.reg 0xF = 0x01) ∧
        ((¬ ∃ px py, SpriteHits s x y n px py ∧ s.pixel px py = true) → t.reg 0xF = 0x00))) ∧
    (n.val ≠ 0 → 4096 ≤ s.i.toNat + n.val - 1 →
      FailsWith (.drw x y n) s (.outOfBounds (s.i.toNat + n.val - 1)))

/-- Drawing the same sprite twice restores the framebuffer, and the second draw reports a collision
exactly if the sprite fell on a pixel that was clear at first (`43_display.md` R96, `95_test_vectors.md`
S2; with `x` or `y` equal to 0xF the origin may move, so they are left out there). R96 corner case f
says "if the sprite has at least one 1 bit"; R96's own operation gives that only where such a pixel was
clear, and the operation is what the model follows (log entry 13). -/
def Obligations.DrawingTwiceRestoresTheScreen : Prop :=
  ∀ (s : State) (x y : RegNum) (n : Fin 16), x ≠ 0xF → y ≠ 0xF →
    (n.val = 0 ∨ s.i.toNat + n.val - 1 < 4096) →
    ∃ t, exec (.drw x y n) s = .next t ∧ ∃ u, exec (.drw x y n) t = .next u ∧ u.outcome = .ok ∧
      (∀ px py, u.pixel px py = s.pixel px py) ∧
      ((∃ px py, SpriteHits s x y n px py ∧ s.pixel px py = false) → u.reg 0xF = 0x01) ∧
      ((¬ ∃ px py, SpriteHits s x y n px py ∧ s.pixel px py = false) → u.reg 0xF = 0x00)

/-! ## Keypad and timers -/

/-- SKP and SKNP test the latch `V[x]` names and skip; above 15 there is no latch and they raise
`OutOfBounds(V[x])` (`44_keypad_timer.md` R98, R99; the error is the spec's decision D11). -/
def Obligations.KeySkipsTestTheLatch : Prop :=
  ∀ (s : State) (x : RegNum),
    (∀ k : Fin 16, (s.reg x).toNat = k.val →
      CompletesWith (.skp x) s [] [] (fun t => t.pc = if s.key[k] = true then s.pc + 4 else s.pc + 2) ∧
      CompletesWith (.sknp x) s [] []
        (fun t => t.pc = if s.key[k] = false then s.pc + 4 else s.pc + 2)) ∧
    (15 < (s.reg x).toNat → FailsWith (.skp x) s (.outOfBounds (s.reg x).toNat) ∧
      FailsWith (.sknp x) s (.outOfBounds (s.reg x).toNat))

/-- LD Vx,K reports the lowest pressed key and advances; with none pressed it ends with `Ok` and
changes nothing at all (`44_keypad_timer.md` R100; the lowest key is the spec's decision D12). -/
def Obligations.WaitForKeyReportsTheLowest : Prop :=
  ∀ (s : State) (x : RegNum),
    (∀ k : Fin 16, s.key[k] = true → (∀ j : Fin 16, j < k → s.key[j] = false) →
      CompletesWith (.ldVxK x) s [x] [] (fun t => t.pc = s.pc + 2 ∧ (t.reg x).toNat = k.val)) ∧
    ((∀ k : Fin 16, s.key[k] = false) → exec (.ldVxK x) s = .next (s.report .ok))

/-- While no key is pressed, however many steps are run, the machine stays where it waits
(`95_test_vectors.md` S5, `44_keypad_timer.md` R100 a, d). -/
def Obligations.WaitForKeyHoldsAcrossSteps : Prop :=
  ∀ (s : State) (x : RegNum) (n : Nat), Runs s (.ldVxK x) → (∀ k : Fin 16, s.key[k] = false) →
    s.outcome = .ok → runSteps n s = s

/-- LD Vx,DT and LD DT,Vx copy the delay timer out and in; no step decrements it
(`44_keypad_timer.md` R101, R102). -/
def Obligations.DelayTimerIsReadAndWritten : Prop :=
  ∀ (s : State) (x : RegNum),
    CompletesWith (.ldVxDT x) s [x] [] (fun t => t.pc = s.pc + 2 ∧ t.reg x = s.dt) ∧
    CompletesWith (.ldDTVx x) s [] [.delayTimer] (fun t => t.pc = s.pc + 2 ∧ t.dt = s.reg x)

/-- LD ST,Vx writes the sound timer where there is one; without it the step that meets its word FX18
reports the word as unknown and changes nothing under abort (`44_keypad_timer.md` R103,
`30_encoding.md` R53: general knowledge and the spec's decision D2; log entry 6). -/
def Obligations.SoundTimerOnlyWhereFitted : Prop :=
  (∀ (s : State) (x : RegNum), s.params.hasSoundTimer = true →
    CompletesWith (.ldSTVx x) s [] [.soundTimer] (fun t => t.pc = s.pc + 2 ∧ t.st = s.reg x)) ∧
  (∀ (s : State) (x : RegNum), s.params.hasSoundTimer = false →
    s.params.unknownOpcodePolicy = .abort → s.canFetch → s.fetchedWord = encode (.ldSTVx x) →
    step s = .next (s.report (.error (.unknownOpcode (encode (.ldSTVx x))))))

/-! ## System -/

/-- LOW and HIGH set the mode tag and nothing else (`45_system.md` R106, R107; that no screen is
cleared is the spec's decision D15). -/
def Obligations.ModeSwitchesSetTheTagOnly : Prop :=
  ∀ s : State,
    CompletesWith .low s [] [.mode] (fun t => t.pc = s.pc + 2 ∧ t.mode = .standard) ∧
    CompletesWith .high s [] [.mode] (fun t => t.pc = s.pc + 2 ∧ t.mode = .extended)

/-- EXIT answers a next state in which nothing has changed, `pc` included, and `HaltRequested` is
handed to the host (`45_system.md` R108; that `pc` stays is the spec's decision D17). -/
def Obligations.ExitChangesNothing : Prop :=
  ∀ s : State, ∃ t, exec .exit s = .next t ∧ t.outcome = .haltRequested ∧ t.pc = s.pc ∧
    RegsBut [] s t ∧ SameBut [] s t

/-! ## Reset and the host's operations -/

/-- `RESET` leaves every piece of state at its value of `10_state.md` R24, from any state: the font at
0x000 to 0x04F (bytes: general knowledge, the spec's D27) and zero in every other byte, `pc` at
0x200, everything else zero, false, clear, standard (values the source does not state: D19). -/
def Obligations.ResetRestoresEveryPiece : Prop :=
  ∀ s : State,
    (∀ k, (s.hostReset).reg k = 0) ∧ (s.hostReset).i = 0 ∧ (s.hostReset).pc = 0x0200 ∧
    (∀ k : Fin 16, (s.hostReset).stack[k] = 0) ∧ (s.hostReset).sp = 0 ∧ (s.hostReset).dt = 0 ∧
    (s.hostReset).st = 0 ∧ (∀ k : Fin 16, (s.hostReset).key[k] = false) ∧
    (∀ x y, (s.hostReset).pixel x y = false) ∧ (s.hostReset).dirty = false ∧
    (s.hostReset).mode = .standard ∧
    (∀ a, (h : a < font.length) → (s.hostReset).readByte a = font[a]) ∧ font.length = 80 ∧
    (∀ a, 80 ≤ a → (s.hostReset).readByte a = 0) ∧ (s.hostReset).params = s.params

/-- `LOAD_ROM` copies a program of at most 3584 bytes to 0x200 upward and writes nothing else; a longer
one is `RomTooLarge` with nothing written; after a step it is refused (`70_reset_and_hazards.md`
R137; the last two are the spec's decision D20). -/
def Obligations.LoadRomCopiesOrFails : Prop :=
  ∀ (s : State) (bytes : List Byte),
    (Memory.wf s.mem → bytes.length ≤ 3584 →
      ∃ t, s.loadRom bytes = .next t ∧ t.outcome = .ok ∧ t.pc = s.pc ∧ RegsBut [] s t ∧
        SameBut [.memory] s t ∧
        (∀ k, (h : k < bytes.length) → t.readByte (0x200 + k) = bytes[k]) ∧
        ∀ a, a < 0x200 ∨ 0x200 + bytes.length ≤ a → t.readByte a = s.readByte a) ∧
    (3584 < bytes.length →
      s.loadRom bytes = .next (s.report (.error (.romTooLarge bytes.length)))) ∧
    Session.act (.loadRom bytes) ⟨s, true⟩ = .refused .loadRomAfterStep

/-- After reset and a load, the first word fetched is the first two bytes of the program
(`70_reset_and_hazards.md` R139, R138). -/
def Obligations.FirstInstructionIsTheFirstTwoRomBytes : Prop :=
  ∀ (s : State) (hi lo : Byte) (rest : List Byte), rest.length ≤ 3582 →
    ∃ t, s.hostReset.loadRom (hi :: lo :: rest) = .next t ∧ t.canFetch ∧ t.pc.toNat = 0x200 ∧
      t.fetchedWord = composeWord hi lo ∧ RegsBut [] s.hostReset t ∧
      SameBut [.memory] s.hostReset t

/-- `TIMER_TICK` takes each timer down by one and stops at 0; the sound timer only where there is one;
nothing else changes (`60_exceptions.md` R124). -/
def Obligations.TimerTickCountsDownToZero : Prop :=
  ∀ s : State,
    (s.timerTick).dt.toNat = s.dt.toNat - 1 ∧
    (s.timerTick).st.toNat = (if s.params.hasSoundTimer then s.st.toNat - 1 else s.st.toNat) ∧
    (s.timerTick).pc = s.pc ∧ (s.timerTick).outcome = s.outcome ∧ RegsBut [] s s.timerTick ∧
    SameBut [.delayTimer, .soundTimer] s s.timerTick

/-- `SET_KEY` writes one latch and nothing else; above 15 it is refused (`60_exceptions.md` R125; the
refusal is the spec's decision D26). -/
def Obligations.SetKeyWritesOneLatch : Prop :=
  ∀ (s : State) (k : Nat) (b : Bool),
    (k < 16 → ∃ t, s.setKey k b = .next t ∧ t.pc = s.pc ∧ t.outcome = s.outcome ∧ RegsBut [] s t ∧
      SameBut [.keys] s t ∧ ∀ j : Fin 16, t.key[j] = if j.val = k then b else s.key[j]) ∧
    (15 < k → s.setKey k b = .refused (.keyIndexOutOfRange k))

/-- `READ_FB` gives all 2048 pixels, row by row from the top, with `dirty` and `mode`; `CLEAR_DIRTY`
clears the flag and nothing else (`60_exceptions.md` R126; the linear order is the spec's D22). -/
def Obligations.ReadFramebufferAndClearDirty : Prop :=
  ∀ s : State,
    (s.readFb.pixels.length = 2048 ∧ s.readFb.dirty = s.dirty ∧ s.readFb.mode = s.mode ∧
      ∀ (x : Fin 64) (y : Fin 32), s.readFb.pixels[64 * y.val + x.val]? = some (s.pixel x y)) ∧
    ((s.clearDirty).dirty = false ∧ (s.clearDirty).pc = s.pc ∧ (s.clearDirty).outcome = s.outcome ∧
      RegsBut [] s s.clearDirty ∧ SameBut [.dirty] s s.clearDirty) ∧
    ∀ b, Session.act .readFb ⟨s, b⟩ = .next ⟨s, b⟩

/-! ## Host operations from every state, and runs -/

/-- Every operation of the host, a step among them, keeps the invariant from every state that has it
(`10_state.md` R25 "kept by every step and every host operation", R26; log entries 5, 6 and 8 for what
is the model's in it). -/
def Obligations.EveryHostOperationKeepsInvariant : Prop :=
  ∀ (op : HostOp) (u v : Session), u.core.Inv → u.act op = .next v → v.core.Inv

/-- A run begins with `RESET` and at most one `LOAD_ROM` and has not ended there; it ends at the first
step whose outcome is not `Ok`, whatever the host would issue after, and nothing but a step ends it
(`60_exceptions.md` R130, the spec's decision D29). Two clauses are not R130's: that a run whose
`LOAD_ROM` failed as `RomTooLarge` goes on, where R138 has the host check for `Ok` first, is the model's
choice (log entry 5, DEDUCED from R137); that an operation refused leaves the run as it was rests on the
model's protocol (log entry 5) and on the spec's decision D26. -/
def Obligations.RunEndsAtTheFirstStepNotOk : Prop :=
  (∀ (s : State) (rom : Option (List Byte)), ∃ u : Session,
    Run.start s rom = .going u ∧ u.stepped = false ∧
    (rom = none → u.core = s.hostReset) ∧
    ∀ bytes, rom = some bytes → s.hostReset.loadRom bytes = .next u.core) ∧
  (∀ (u v : Session) (t : State) (before after : List RunOp),
    Run.perform before (.going u) = .going v → step v.core = .next t →
    (t.outcome = .ok →
      Run.perform (before ++ .step :: after) (.going u) = Run.perform after (.going ⟨t, true⟩)) ∧
    (t.outcome = .haltRequested → Run.perform (before ++ .step :: after) (.going u) = .halted t) ∧
    ∀ e, t.outcome = .error e → Run.perform (before ++ .step :: after) (.going u) = .faulted e t) ∧
  ∀ (u : Session) (op : RunOp), op ≠ .step → ∃ v : Session,
    Run.perform [op] (.going u) = .going v ∧ v.stepped = u.stepped ∧
    (u.act op.hostOp = .next v ∨ (v = u ∧ ∃ r, u.act op.hostOp = .refused r))

/-- The final state of a run that has ended is the state before its last step, with that step's
outcome; under the skip policy `pc` is excepted for an unknown opcode (`60_exceptions.md` R130, R116,
R117; the spec's decision D29). -/
def Obligations.FinalStateIsTheStateBeforeTheLastStep : Prop :=
  ∀ (u : Session) (ops : List RunOp),
    (∀ t, Run.perform ops (.going u) = .halted t → ∃ (before after : List RunOp) (v : Session),
      ops = before ++ .step :: after ∧ Run.perform before (.going u) = .going v ∧
      Runs v.core .exit ∧ t = v.core.report .haltRequested) ∧
    (∀ e t, Run.perform ops (.going u) = .faulted e t →
      ∃ (before after : List RunOp) (v : Session),
        ops = before ++ .step :: after ∧ Run.perform before (.going u) = .going v ∧
        (t = v.core.report (.error e) ∨
          (v.core.params.unknownOpcodePolicy = .skip ∧ (∃ w, e = .unknownOpcode w) ∧
            t = (v.core.setPc (v.core.pc + 2)).report (.error e))))

/-- The two usual endless runs: at a jump to itself, whatever the host issues, and at a wait for a key
while the host presses none, the run goes on and stays where it is (`60_exceptions.md` R130,
`40_control_transfer.md` R62, `44_keypad_timer.md` R100). -/
def Obligations.EndlessRunsNeverEnd : Prop :=
  ∀ (u : Session) (ops : List RunOp),
    (∀ a, Runs u.core (.jp a) → addrWord a = u.core.pc →
      ∃ v, Run.perform ops (.going u) = .going v ∧ v.core.pc = u.core.pc ∧ RegsBut [] u.core v.core ∧
        SameBut [.delayTimer, .soundTimer, .keys, .dirty] u.core v.core) ∧
    (∀ x, Runs u.core (.ldVxK x) → (∀ k : Fin 16, u.core.key[k] = false) →
      (∀ k, RunOp.setKey k true ∉ ops) →
      ∃ v, Run.perform ops (.going u) = .going v ∧ v.core.pc = u.core.pc ∧ RegsBut [] u.core v.core ∧
        SameBut [.delayTimer, .soundTimer, .dirty] u.core v.core)

/-- A run in which the host only steps is `runSteps`, whatever stands in the session's flag
(`60_exceptions.md` R130; both names are the model's, log entries 2 and 5). -/
def Obligations.BareStepsAreARun : Prop :=
  ∀ (s : State) (b : Bool) (n : Nat),
    (Run.perform (List.replicate n .step) (.going ⟨s, b⟩)).core = runSteps n s
end

