-- ==== Sys2Proof/Laws/Decode.lean ====
section
/-! SUPPORT. The fields of an opcode and the words the encoder builds, as numbers: what proofs about
decoding cite. -/

namespace Sys2Proof

/-! ## Fields as numbers (`30_encoding.md` R46) -/

theorem fieldTop_toNat (w : Word) : (fieldTop w).toNat = w.toNat / 4096 := by
  have := w.isLt
  simp only [fieldTop, BitVec.extractLsb'_toNat, Nat.shiftRight_eq_div_pow]
  omega

theorem fieldX_val (w : Word) : (fieldX w).val = w.toNat / 256 % 16 := by
  show (w.extractLsb' 8 4).toNat = _
  simp only [BitVec.extractLsb'_toNat, Nat.shiftRight_eq_div_pow]

theorem fieldY_val (w : Word) : (fieldY w).val = w.toNat / 16 % 16 := by
  show (w.extractLsb' 4 4).toNat = _
  simp only [BitVec.extractLsb'_toNat, Nat.shiftRight_eq_div_pow]

theorem fieldN_val (w : Word) : (fieldN w).val = w.toNat % 16 := by
  show (w.extractLsb' 0 4).toNat = _
  simp only [BitVec.extractLsb'_toNat, Nat.shiftRight_eq_div_pow]
  omega

theorem fieldNN_toNat (w : Word) : (fieldNN w).toNat = w.toNat % 256 := by
  simp only [fieldNN, BitVec.extractLsb'_toNat, Nat.shiftRight_eq_div_pow]
  omega

theorem fieldAddr_toNat (w : Word) : (fieldAddr w).toNat = w.toNat % 4096 := by
  simp only [fieldAddr, BitVec.extractLsb'_toNat, Nat.shiftRight_eq_div_pow]
  omega

/-! ## Words as numbers -/

theorem toNat_append_eq {n m : Nat} (a : BitVec n) (b : BitVec m) :
    (a ++ b).toNat = a.toNat * 2 ^ m + b.toNat := by
  rw [BitVec.toNat_append, ← Nat.shiftLeft_add_eq_or_of_lt b.isLt, Nat.shiftLeft_eq]

theorem composeWord_toNat (hi lo : Byte) :
    (composeWord hi lo).toNat = hi.toNat * 256 + lo.toNat := toNat_append_eq hi lo

theorem wordNNN_toNat (t : BitVec 4) (a : Addr12) :
    (wordNNN t a).toNat = t.toNat * 4096 + a.toNat := toNat_append_eq t a

theorem wordXNN_toNat (t : BitVec 4) (x : Fin 16) (nn : Byte) :
    (wordXNN t x nn).toNat = t.toNat * 4096 + (x.val * 256 + nn.toNat) :=
  (toNat_append_eq t (nibbleBits x ++ nn)).trans
    (congrArg (t.toNat * 4096 + ·) (toNat_append_eq (nibbleBits x) nn))

theorem wordXYN_toNat (t : BitVec 4) (x y n : Fin 16) :
    (wordXYN t x y n).toNat = t.toNat * 4096 + (x.val * 256 + (y.val * 16 + n.val)) :=
  (toNat_append_eq t (nibbleBits x ++ (nibbleBits y ++ nibbleBits n))).trans
    (congrArg (t.toNat * 4096 + ·)
      ((toNat_append_eq (nibbleBits x) (nibbleBits y ++ nibbleBits n)).trans
        (congrArg (x.val * 256 + ·) (toNat_append_eq (nibbleBits y) (nibbleBits n)))))

/-! ## Fields of the words the encoder builds -/

@[simp] theorem fieldTop_wordNNN (t : BitVec 4) (a : Addr12) : fieldTop (wordNNN t a) = t := by
  have := a.isLt
  apply BitVec.eq_of_toNat_eq
  rw [fieldTop_toNat, wordNNN_toNat]; omega

@[simp] theorem fieldAddr_wordNNN (t : BitVec 4) (a : Addr12) : fieldAddr (wordNNN t a) = a := by
  have := a.isLt
  apply BitVec.eq_of_toNat_eq
  rw [fieldAddr_toNat, wordNNN_toNat]; omega

@[simp] theorem fieldTop_wordXNN (t : BitVec 4) (x : Fin 16) (nn : Byte) :
    fieldTop (wordXNN t x nn) = t := by
  have := nn.isLt; have := x.isLt
  apply BitVec.eq_of_toNat_eq
  rw [fieldTop_toNat, wordXNN_toNat]; omega

@[simp] theorem fieldX_wordXNN (t : BitVec 4) (x : Fin 16) (nn : Byte) :
    fieldX (wordXNN t x nn) = x := by
  have := nn.isLt; have := x.isLt
  apply Fin.ext
  rw [fieldX_val, wordXNN_toNat]; omega

@[simp] theorem fieldNN_wordXNN (t : BitVec 4) (x : Fin 16) (nn : Byte) :
    fieldNN (wordXNN t x nn) = nn := by
  have := nn.isLt; have := x.isLt
  apply BitVec.eq_of_toNat_eq
  rw [fieldNN_toNat, wordXNN_toNat]; omega

@[simp] theorem fieldTop_wordXYN (t : BitVec 4) (x y n : Fin 16) : fieldTop (wordXYN t x y n) = t := by
  have := x.isLt; have := y.isLt; have := n.isLt
  apply BitVec.eq_of_toNat_eq
  rw [fieldTop_toNat, wordXYN_toNat]; omega

@[simp] theorem fieldX_wordXYN (t : BitVec 4) (x y n : Fin 16) : fieldX (wordXYN t x y n) = x := by
  have := x.isLt; have := y.isLt; have := n.isLt
  apply Fin.ext
  rw [fieldX_val, wordXYN_toNat]; omega

@[simp] theorem fieldY_wordXYN (t : BitVec 4) (x y n : Fin 16) : fieldY (wordXYN t x y n) = y := by
  have := x.isLt; have := y.isLt; have := n.isLt
  apply Fin.ext
  rw [fieldY_val, wordXYN_toNat]; omega

@[simp] theorem fieldN_wordXYN (t : BitVec 4) (x y n : Fin 16) : fieldN (wordXYN t x y n) = n := by
  have := x.isLt; have := y.isLt; have := n.isLt
  apply Fin.ext
  rw [fieldN_val, wordXYN_toNat]; omega

/-! ## Words from their fields -/

theorem wordNNN_fields (w : Word) : wordNNN (fieldTop w) (fieldAddr w) = w := by
  have := w.isLt
  apply BitVec.eq_of_toNat_eq
  rw [wordNNN_toNat, fieldTop_toNat, fieldAddr_toNat]; omega

theorem wordXNN_fields (w : Word) : wordXNN (fieldTop w) (fieldX w) (fieldNN w) = w := by
  have := w.isLt
  apply BitVec.eq_of_toNat_eq
  rw [wordXNN_toNat, fieldTop_toNat, fieldX_val, fieldNN_toNat]; omega

theorem wordXYN_fields (w : Word) : wordXYN (fieldTop w) (fieldX w) (fieldY w) (fieldN w) = w := by
  have := w.isLt
  apply BitVec.eq_of_toNat_eq
  rw [wordXYN_toNat, fieldTop_toNat, fieldX_val, fieldY_val, fieldN_val]; omega

/-! ## Unknown words and known ones -/

/-- An unknown word is reported as itself. -/
theorem decode_unknown (st : Bool) (w w' : Word) (h : decode st w = .unknown w') : w' = w := by
  unfold decode at h
  split at h <;> try cases h
  · unfold decodeClass0 at h; split at h <;> cases h; rfl
  · unfold decodeClass8 at h; split at h <;> cases h; rfl
  · unfold decodeClassE at h; split at h <;> cases h; rfl
  · unfold decodeClassF at h
    split at h <;> try cases h
    · split at h <;> cases h; rfl
    · rfl

/-- Every instruction decoded is an instruction of the machine. -/
theorem decode_wf (st : Bool) (w : Word) (i : Instr) (h : decode st w = .instr i) : i.wellFormed st = true := by
  unfold decode at h
  split at h <;> try (cases h <;> rfl)
  · unfold decodeClass0 at h; split at h <;> cases h <;> rfl
  · unfold decodeClass8 at h; split at h <;> cases h <;> rfl
  · unfold decodeClassE at h; split at h <;> cases h <;> rfl
  · unfold decodeClassF at h
    split at h <;> try (cases h <;> rfl)
    split at h
    · rename_i hs; cases h; exact hs
    · cases h

/-! ## The bytes of a word -/

theorem wordBytes_compose (w : Word) :
    composeWord (w.extractLsb' 8 8) (w.extractLsb' 0 8) = w := by
  have := w.isLt
  apply BitVec.eq_of_toNat_eq
  rw [composeWord_toNat]
  simp only [BitVec.extractLsb'_toNat, Nat.shiftRight_eq_div_pow]
  omega

end Sys2Proof
end

