-- ==== Sys2Proof/Laws/Memory.lean ====
section
/-! SUPPORT. The laws of memory: a read after a write, the canonical form kept, and blocks of bytes. -/

namespace Sys2Proof.Machine.Memory

theorem read_write_same (a : Nat) (b : Byte) (m : Memory)
    (h : m.Pairwise (fun c d => c.1 < d.1)) : read a (write a b m) = b := by
  induction m with
  | nil => by_cases hb : b = blankByte a <;> simp [write, read, hb]
  | cons c rest ih =>
    obtain ⟨hc, hr⟩ := List.pairwise_cons.mp h
    have blank : ∀ l : Memory, (∀ d ∈ l, a < d.1) → read a l = blankByte a := by
      intro l hl
      induction l with
      | nil => rfl
      | cons d l ih' =>
        have h1 := hl d (by simp)
        have h2 := ih' (fun e he => hl e (by simp [he]))
        simp [read, h2]; omega
    unfold write
    split
    · rename_i hlt
      simp [read, ih hr]; omega
    · split
      · rename_i heq
        split
        · rename_i hb
          rw [blank rest (fun d hd => heq ▸ hc d hd), hb]
        · simp [read]
      · split
        · rename_i hb
          rw [blank (c :: rest), hb]
          intro d hd
          rcases List.mem_cons.mp hd with rfl | hd
          · omega
          · have := hc d hd; omega
        · simp [read]

theorem read_write_ne (a a' : Nat) (b : Byte) (m : Memory) (h : a' ≠ a) :
    read a' (write a b m) = read a' m := by
  induction m with
  | nil => by_cases hb : b = blankByte a <;> simp [write, read, hb, Ne.symm h]
  | cons c rest ih =>
    unfold write
    split
    · simp [read, ih]
    · split
      · rename_i heq
        split
        · simp [read]; intro e; omega
        · simp only [read]; rw [if_neg (Ne.symm h), if_neg (by omega)]
      · split
        · rfl
        · simp only [read]; rw [if_neg (Ne.symm h)]

/-- Every address listed after a write was listed before, or is the one written. -/
theorem mem_write (a : Nat) (b : Byte) (m : Memory) (c : Host.Cell) (h : c ∈ write a b m) :
    c ∈ m ∨ c = (a, b) ∧ b ≠ blankByte a := by
  induction m with
  | nil =>
    by_cases hb : b = blankByte a
    · simp [write, hb] at h
    · simp [write, hb] at h; exact .inr ⟨h, hb⟩
  | cons d rest ih =>
    unfold write at h
    split at h
    · rcases List.mem_cons.mp h with rfl | h
      · exact .inl (by simp)
      · rcases ih h with h | h
        · exact .inl (by simp [h])
        · exact .inr h
    · split at h
      · split at h
        · exact .inl (by simp [h])
        · rename_i hb
          rcases List.mem_cons.mp h with rfl | h
          · exact .inr ⟨rfl, hb⟩
          · exact .inl (by simp [h])
      · split at h
        · exact .inl h
        · rename_i hb
          rcases List.mem_cons.mp h with rfl | h
          · exact .inr ⟨rfl, hb⟩
          · exact .inl h

/-- A write keeps the canonical form. -/
theorem wf_write (a : Nat) (b : Byte) (m : Memory) (ha : a < Config.memSize) (h : wf m) :
    wf (write a b m) := by
  refine ⟨?_, fun c hc => ?_⟩
  · have hp := h.1
    clear h
    induction m with
    | nil => by_cases hb : b = blankByte a <;> simp [write, hb]
    | cons c rest ih =>
      obtain ⟨hc, hr⟩ := List.pairwise_cons.mp hp
      unfold write
      split
      · rename_i hlt
        refine List.pairwise_cons.mpr ⟨fun d hd => ?_, ih hr⟩
        rcases mem_write a b rest d hd with hd | ⟨rfl, -⟩
        · exact hc d hd
        · exact hlt
      · split
        · rename_i heq
          split
          · exact hr
          · exact List.pairwise_cons.mpr ⟨fun d hd => heq ▸ hc d hd, hr⟩
        · split
          · exact hp
          · refine List.pairwise_cons.mpr ⟨fun d hd => ?_, hp⟩
            rcases List.mem_cons.mp hd with rfl | hd
            · show a < d.1; omega
            · have := hc d hd; show a < d.1; omega
  · rcases mem_write a b m c hc with hc | ⟨rfl, hb⟩
    · exact h.2 c hc
    · exact ⟨ha, hb⟩

theorem wf_reset : wf [] := ⟨List.Pairwise.nil, by simp⟩

/-! ## Blocks -/

/-- Writing bytes inside memory succeeds. -/
theorem writeBytes?_isSome (a : Nat) (bs : List Byte) (m : Memory)
    (h : a + bs.length ≤ 4096) : (writeBytes? a bs m).isSome := by
  induction bs generalizing a m with
  | nil => rfl
  | cons b bs ih =>
    simp only [List.length_cons] at h
    simp only [writeBytes?, show a < Config.memSize by show a < 4096; omega, if_true]
    exact ih (a + 1) _ (by omega)

/-- Every operation on blocks keeps the canonical form. -/
theorem wf_writeBytes? (a : Nat) (bs : List Byte) (m m' : Memory) (h : writeBytes? a bs m = some m')
    (hw : wf m) : wf m' := by
  induction bs generalizing a m with
  | nil => simp [writeBytes?] at h; exact h ▸ hw
  | cons b bs ih =>
    simp only [writeBytes?] at h
    split at h
    · rename_i ha; exact ih _ _ h (wf_write a b m ha hw)
    · cases h

/-- Outside the bytes written every address reads as before, in any memory. -/
theorem read_writeBytes?_outside (a : Nat) (bs : List Byte) (m m' : Memory)
    (h : writeBytes? a bs m = some m') (k : Nat) (hk : k < a ∨ a + bs.length ≤ k) :
    read k m' = read k m := by
  induction bs generalizing a m with
  | nil => simp [writeBytes?] at h; rw [h]
  | cons b bs ih =>
    simp only [writeBytes?] at h
    simp only [List.length_cons] at hk
    split at h
    · rw [ih (a + 1) _ h (by omega), read_write_ne _ _ _ _ (by omega)]
    · cases h

/-- Inside, each address reads as the byte written there. -/
theorem read_writeBytes?_inside (a : Nat) (bs : List Byte) (m m' : Memory)
    (h : writeBytes? a bs m = some m') (hw : wf m) (k : Nat) (hk : k < bs.length) :
    read (a + k) m' = bs[k] := by
  induction bs generalizing a m k with
  | nil => simp at hk
  | cons b bs ih =>
    simp only [writeBytes?] at h
    split at h
    · rename_i ha
      cases k with
      | zero =>
        rw [read_writeBytes?_outside (a + 1) bs _ _ h _ (by omega)]
        exact read_write_same a b m hw.1
      | succ k =>
        have := ih (a + 1) _ h (wf_write a b m ha hw) k (by simpa using hk)
        rw [show a + (k + 1) = a + 1 + k by omega, this]; rfl
    · cases h

/-- Reading bytes inside memory gives each of them. -/
theorem readBytes?_eq (m : Memory) (a n : Nat) (h : a + n ≤ 4096) :
    m.readBytes? a n = some ((List.range' a n).map m.read) := by
  induction n generalizing a with
  | zero => rfl
  | succ n ih =>
    simp only [readBytes?, show a < Config.memSize by show a < 4096; omega, if_true, ih (a + 1) (by omega)]
    rfl

theorem readWord?_eq (m : Memory) (a : Nat) (h : a + 1 < 4096) :
    m.readWord? a = some (composeWord (m.read a) (m.read (a + 1))) := by
  simp [readWord?, h]

end Sys2Proof.Machine.Memory
end

