-- ==== Sys2Proof/Laws/State.lean ====
section
/-! SUPPORT. One lemma per field per update of `State`, so that no later proof unfolds a record
update. -/

namespace Sys2Proof.Machine.State

variable (s : State)

/-! ## setReg -/

@[simp] theorem setReg_v (x : RegNum) (b : Byte) : (s.setReg x b).v = s.v.set x b := rfl
@[simp] theorem setReg_i (x : RegNum) (b : Byte) : (s.setReg x b).i = s.i := rfl
@[simp] theorem setReg_pc (x : RegNum) (b : Byte) : (s.setReg x b).pc = s.pc := rfl
@[simp] theorem setReg_stack (x : RegNum) (b : Byte) : (s.setReg x b).stack = s.stack := rfl
@[simp] theorem setReg_sp (x : RegNum) (b : Byte) : (s.setReg x b).sp = s.sp := rfl
@[simp] theorem setReg_dt (x : RegNum) (b : Byte) : (s.setReg x b).dt = s.dt := rfl
@[simp] theorem setReg_st (x : RegNum) (b : Byte) : (s.setReg x b).st = s.st := rfl
@[simp] theorem setReg_key (x : RegNum) (b : Byte) : (s.setReg x b).key = s.key := rfl
@[simp] theorem setReg_fb (x : RegNum) (b : Byte) : (s.setReg x b).fb = s.fb := rfl
@[simp] theorem setReg_dirty (x : RegNum) (b : Byte) : (s.setReg x b).dirty = s.dirty := rfl
@[simp] theorem setReg_mode (x : RegNum) (b : Byte) : (s.setReg x b).mode = s.mode := rfl
@[simp] theorem setReg_mem (x : RegNum) (b : Byte) : (s.setReg x b).mem = s.mem := rfl
@[simp] theorem setReg_params (x : RegNum) (b : Byte) : (s.setReg x b).params = s.params := rfl
@[simp] theorem setReg_draws (x : RegNum) (b : Byte) : (s.setReg x b).draws = s.draws := rfl
@[simp] theorem setReg_outcome (x : RegNum) (b : Byte) : (s.setReg x b).outcome = s.outcome := rfl
@[simp] theorem setReg_readByte (x : RegNum) (b : Byte) (a : Nat) : (s.setReg x b).readByte a = s.readByte a := rfl
@[simp] theorem setReg_pixel (x : RegNum) (b : Byte) (c : Fin 64) (r : Fin 32) : (s.setReg x b).pixel c r = s.pixel c r := rfl

/-! ## setIndex -/

@[simp] theorem setIndex_v (w : Word) : (s.setIndex w).v = s.v := rfl
@[simp] theorem setIndex_i (w : Word) : (s.setIndex w).i = w := rfl
@[simp] theorem setIndex_pc (w : Word) : (s.setIndex w).pc = s.pc := rfl
@[simp] theorem setIndex_stack (w : Word) : (s.setIndex w).stack = s.stack := rfl
@[simp] theorem setIndex_sp (w : Word) : (s.setIndex w).sp = s.sp := rfl
@[simp] theorem setIndex_dt (w : Word) : (s.setIndex w).dt = s.dt := rfl
@[simp] theorem setIndex_st (w : Word) : (s.setIndex w).st = s.st := rfl
@[simp] theorem setIndex_key (w : Word) : (s.setIndex w).key = s.key := rfl
@[simp] theorem setIndex_fb (w : Word) : (s.setIndex w).fb = s.fb := rfl
@[simp] theorem setIndex_dirty (w : Word) : (s.setIndex w).dirty = s.dirty := rfl
@[simp] theorem setIndex_mode (w : Word) : (s.setIndex w).mode = s.mode := rfl
@[simp] theorem setIndex_mem (w : Word) : (s.setIndex w).mem = s.mem := rfl
@[simp] theorem setIndex_params (w : Word) : (s.setIndex w).params = s.params := rfl
@[simp] theorem setIndex_draws (w : Word) : (s.setIndex w).draws = s.draws := rfl
@[simp] theorem setIndex_outcome (w : Word) : (s.setIndex w).outcome = s.outcome := rfl
@[simp] theorem setIndex_reg (w : Word) (k : RegNum) : (s.setIndex w).reg k = s.reg k := rfl
@[simp] theorem setIndex_readByte (w : Word) (a : Nat) : (s.setIndex w).readByte a = s.readByte a := rfl
@[simp] theorem setIndex_pixel (w : Word) (c : Fin 64) (r : Fin 32) : (s.setIndex w).pixel c r = s.pixel c r := rfl

/-! ## setPc -/

@[simp] theorem setPc_v (w : Word) : (s.setPc w).v = s.v := rfl
@[simp] theorem setPc_i (w : Word) : (s.setPc w).i = s.i := rfl
@[simp] theorem setPc_pc (w : Word) : (s.setPc w).pc = w := rfl
@[simp] theorem setPc_stack (w : Word) : (s.setPc w).stack = s.stack := rfl
@[simp] theorem setPc_sp (w : Word) : (s.setPc w).sp = s.sp := rfl
@[simp] theorem setPc_dt (w : Word) : (s.setPc w).dt = s.dt := rfl
@[simp] theorem setPc_st (w : Word) : (s.setPc w).st = s.st := rfl
@[simp] theorem setPc_key (w : Word) : (s.setPc w).key = s.key := rfl
@[simp] theorem setPc_fb (w : Word) : (s.setPc w).fb = s.fb := rfl
@[simp] theorem setPc_dirty (w : Word) : (s.setPc w).dirty = s.dirty := rfl
@[simp] theorem setPc_mode (w : Word) : (s.setPc w).mode = s.mode := rfl
@[simp] theorem setPc_mem (w : Word) : (s.setPc w).mem = s.mem := rfl
@[simp] theorem setPc_params (w : Word) : (s.setPc w).params = s.params := rfl
@[simp] theorem setPc_draws (w : Word) : (s.setPc w).draws = s.draws := rfl
@[simp] theorem setPc_outcome (w : Word) : (s.setPc w).outcome = s.outcome := rfl
@[simp] theorem setPc_reg (w : Word) (k : RegNum) : (s.setPc w).reg k = s.reg k := rfl
@[simp] theorem setPc_readByte (w : Word) (a : Nat) : (s.setPc w).readByte a = s.readByte a := rfl
@[simp] theorem setPc_pixel (w : Word) (c : Fin 64) (r : Fin 32) : (s.setPc w).pixel c r = s.pixel c r := rfl

/-! ## setDelay -/

@[simp] theorem setDelay_v (b : Byte) : (s.setDelay b).v = s.v := rfl
@[simp] theorem setDelay_i (b : Byte) : (s.setDelay b).i = s.i := rfl
@[simp] theorem setDelay_pc (b : Byte) : (s.setDelay b).pc = s.pc := rfl
@[simp] theorem setDelay_stack (b : Byte) : (s.setDelay b).stack = s.stack := rfl
@[simp] theorem setDelay_sp (b : Byte) : (s.setDelay b).sp = s.sp := rfl
@[simp] theorem setDelay_dt (b : Byte) : (s.setDelay b).dt = b := rfl
@[simp] theorem setDelay_st (b : Byte) : (s.setDelay b).st = s.st := rfl
@[simp] theorem setDelay_key (b : Byte) : (s.setDelay b).key = s.key := rfl
@[simp] theorem setDelay_fb (b : Byte) : (s.setDelay b).fb = s.fb := rfl
@[simp] theorem setDelay_dirty (b : Byte) : (s.setDelay b).dirty = s.dirty := rfl
@[simp] theorem setDelay_mode (b : Byte) : (s.setDelay b).mode = s.mode := rfl
@[simp] theorem setDelay_mem (b : Byte) : (s.setDelay b).mem = s.mem := rfl
@[simp] theorem setDelay_params (b : Byte) : (s.setDelay b).params = s.params := rfl
@[simp] theorem setDelay_draws (b : Byte) : (s.setDelay b).draws = s.draws := rfl
@[simp] theorem setDelay_outcome (b : Byte) : (s.setDelay b).outcome = s.outcome := rfl
@[simp] theorem setDelay_reg (b : Byte) (k : RegNum) : (s.setDelay b).reg k = s.reg k := rfl
@[simp] theorem setDelay_readByte (b : Byte) (a : Nat) : (s.setDelay b).readByte a = s.readByte a := rfl
@[simp] theorem setDelay_pixel (b : Byte) (c : Fin 64) (r : Fin 32) : (s.setDelay b).pixel c r = s.pixel c r := rfl

/-! ## setSound -/

@[simp] theorem setSound_v (b : Byte) : (s.setSound b).v = s.v := rfl
@[simp] theorem setSound_i (b : Byte) : (s.setSound b).i = s.i := rfl
@[simp] theorem setSound_pc (b : Byte) : (s.setSound b).pc = s.pc := rfl
@[simp] theorem setSound_stack (b : Byte) : (s.setSound b).stack = s.stack := rfl
@[simp] theorem setSound_sp (b : Byte) : (s.setSound b).sp = s.sp := rfl
@[simp] theorem setSound_dt (b : Byte) : (s.setSound b).dt = s.dt := rfl
@[simp] theorem setSound_st (b : Byte) : (s.setSound b).st = b := rfl
@[simp] theorem setSound_key (b : Byte) : (s.setSound b).key = s.key := rfl
@[simp] theorem setSound_fb (b : Byte) : (s.setSound b).fb = s.fb := rfl
@[simp] theorem setSound_dirty (b : Byte) : (s.setSound b).dirty = s.dirty := rfl
@[simp] theorem setSound_mode (b : Byte) : (s.setSound b).mode = s.mode := rfl
@[simp] theorem setSound_mem (b : Byte) : (s.setSound b).mem = s.mem := rfl
@[simp] theorem setSound_params (b : Byte) : (s.setSound b).params = s.params := rfl
@[simp] theorem setSound_draws (b : Byte) : (s.setSound b).draws = s.draws := rfl
@[simp] theorem setSound_outcome (b : Byte) : (s.setSound b).outcome = s.outcome := rfl
@[simp] theorem setSound_reg (b : Byte) (k : RegNum) : (s.setSound b).reg k = s.reg k := rfl
@[simp] theorem setSound_readByte (b : Byte) (a : Nat) : (s.setSound b).readByte a = s.readByte a := rfl
@[simp] theorem setSound_pixel (b : Byte) (c : Fin 64) (r : Fin 32) : (s.setSound b).pixel c r = s.pixel c r := rfl

/-! ## setMem -/

@[simp] theorem setMem_v (m : Memory) : (s.setMem m).v = s.v := rfl
@[simp] theorem setMem_i (m : Memory) : (s.setMem m).i = s.i := rfl
@[simp] theorem setMem_pc (m : Memory) : (s.setMem m).pc = s.pc := rfl
@[simp] theorem setMem_stack (m : Memory) : (s.setMem m).stack = s.stack := rfl
@[simp] theorem setMem_sp (m : Memory) : (s.setMem m).sp = s.sp := rfl
@[simp] theorem setMem_dt (m : Memory) : (s.setMem m).dt = s.dt := rfl
@[simp] theorem setMem_st (m : Memory) : (s.setMem m).st = s.st := rfl
@[simp] theorem setMem_key (m : Memory) : (s.setMem m).key = s.key := rfl
@[simp] theorem setMem_fb (m : Memory) : (s.setMem m).fb = s.fb := rfl
@[simp] theorem setMem_dirty (m : Memory) : (s.setMem m).dirty = s.dirty := rfl
@[simp] theorem setMem_mode (m : Memory) : (s.setMem m).mode = s.mode := rfl
@[simp] theorem setMem_mem (m : Memory) : (s.setMem m).mem = m := rfl
@[simp] theorem setMem_params (m : Memory) : (s.setMem m).params = s.params := rfl
@[simp] theorem setMem_draws (m : Memory) : (s.setMem m).draws = s.draws := rfl
@[simp] theorem setMem_outcome (m : Memory) : (s.setMem m).outcome = s.outcome := rfl
@[simp] theorem setMem_reg (m : Memory) (k : RegNum) : (s.setMem m).reg k = s.reg k := rfl
@[simp] theorem setMem_pixel (m : Memory) (c : Fin 64) (r : Fin 32) : (s.setMem m).pixel c r = s.pixel c r := rfl

/-! ## setFb -/

@[simp] theorem setFb_v (f : Framebuffer) : (s.setFb f).v = s.v := rfl
@[simp] theorem setFb_i (f : Framebuffer) : (s.setFb f).i = s.i := rfl
@[simp] theorem setFb_pc (f : Framebuffer) : (s.setFb f).pc = s.pc := rfl
@[simp] theorem setFb_stack (f : Framebuffer) : (s.setFb f).stack = s.stack := rfl
@[simp] theorem setFb_sp (f : Framebuffer) : (s.setFb f).sp = s.sp := rfl
@[simp] theorem setFb_dt (f : Framebuffer) : (s.setFb f).dt = s.dt := rfl
@[simp] theorem setFb_st (f : Framebuffer) : (s.setFb f).st = s.st := rfl
@[simp] theorem setFb_key (f : Framebuffer) : (s.setFb f).key = s.key := rfl
@[simp] theorem setFb_fb (f : Framebuffer) : (s.setFb f).fb = f := rfl
@[simp] theorem setFb_dirty (f : Framebuffer) : (s.setFb f).dirty = s.dirty := rfl
@[simp] theorem setFb_mode (f : Framebuffer) : (s.setFb f).mode = s.mode := rfl
@[simp] theorem setFb_mem (f : Framebuffer) : (s.setFb f).mem = s.mem := rfl
@[simp] theorem setFb_params (f : Framebuffer) : (s.setFb f).params = s.params := rfl
@[simp] theorem setFb_draws (f : Framebuffer) : (s.setFb f).draws = s.draws := rfl
@[simp] theorem setFb_outcome (f : Framebuffer) : (s.setFb f).outcome = s.outcome := rfl
@[simp] theorem setFb_reg (f : Framebuffer) (k : RegNum) : (s.setFb f).reg k = s.reg k := rfl
@[simp] theorem setFb_readByte (f : Framebuffer) (a : Nat) : (s.setFb f).readByte a = s.readByte a := rfl

/-! ## setDirty -/

@[simp] theorem setDirty_v (b : Bool) : (s.setDirty b).v = s.v := rfl
@[simp] theorem setDirty_i (b : Bool) : (s.setDirty b).i = s.i := rfl
@[simp] theorem setDirty_pc (b : Bool) : (s.setDirty b).pc = s.pc := rfl
@[simp] theorem setDirty_stack (b : Bool) : (s.setDirty b).stack = s.stack := rfl
@[simp] theorem setDirty_sp (b : Bool) : (s.setDirty b).sp = s.sp := rfl
@[simp] theorem setDirty_dt (b : Bool) : (s.setDirty b).dt = s.dt := rfl
@[simp] theorem setDirty_st (b : Bool) : (s.setDirty b).st = s.st := rfl
@[simp] theorem setDirty_key (b : Bool) : (s.setDirty b).key = s.key := rfl
@[simp] theorem setDirty_fb (b : Bool) : (s.setDirty b).fb = s.fb := rfl
@[simp] theorem setDirty_dirty (b : Bool) : (s.setDirty b).dirty = b := rfl
@[simp] theorem setDirty_mode (b : Bool) : (s.setDirty b).mode = s.mode := rfl
@[simp] theorem setDirty_mem (b : Bool) : (s.setDirty b).mem = s.mem := rfl
@[simp] theorem setDirty_params (b : Bool) : (s.setDirty b).params = s.params := rfl
@[simp] theorem setDirty_draws (b : Bool) : (s.setDirty b).draws = s.draws := rfl
@[simp] theorem setDirty_outcome (b : Bool) : (s.setDirty b).outcome = s.outcome := rfl
@[simp] theorem setDirty_reg (b : Bool) (k : RegNum) : (s.setDirty b).reg k = s.reg k := rfl
@[simp] theorem setDirty_readByte (b : Bool) (a : Nat) : (s.setDirty b).readByte a = s.readByte a := rfl
@[simp] theorem setDirty_pixel (b : Bool) (c : Fin 64) (r : Fin 32) : (s.setDirty b).pixel c r = s.pixel c r := rfl

/-! ## setMode -/

@[simp] theorem setMode_v (m : Mode) : (s.setMode m).v = s.v := rfl
@[simp] theorem setMode_i (m : Mode) : (s.setMode m).i = s.i := rfl
@[simp] theorem setMode_pc (m : Mode) : (s.setMode m).pc = s.pc := rfl
@[simp] theorem setMode_stack (m : Mode) : (s.setMode m).stack = s.stack := rfl
@[simp] theorem setMode_sp (m : Mode) : (s.setMode m).sp = s.sp := rfl
@[simp] theorem setMode_dt (m : Mode) : (s.setMode m).dt = s.dt := rfl
@[simp] theorem setMode_st (m : Mode) : (s.setMode m).st = s.st := rfl
@[simp] theorem setMode_key (m : Mode) : (s.setMode m).key = s.key := rfl
@[simp] theorem setMode_fb (m : Mode) : (s.setMode m).fb = s.fb := rfl
@[simp] theorem setMode_dirty (m : Mode) : (s.setMode m).dirty = s.dirty := rfl
@[simp] theorem setMode_mode (m : Mode) : (s.setMode m).mode = m := rfl
@[simp] theorem setMode_mem (m : Mode) : (s.setMode m).mem = s.mem := rfl
@[simp] theorem setMode_params (m : Mode) : (s.setMode m).params = s.params := rfl
@[simp] theorem setMode_draws (m : Mode) : (s.setMode m).draws = s.draws := rfl
@[simp] theorem setMode_outcome (m : Mode) : (s.setMode m).outcome = s.outcome := rfl
@[simp] theorem setMode_reg (m : Mode) (k : RegNum) : (s.setMode m).reg k = s.reg k := rfl
@[simp] theorem setMode_readByte (m : Mode) (a : Nat) : (s.setMode m).readByte a = s.readByte a := rfl
@[simp] theorem setMode_pixel (m : Mode) (c : Fin 64) (r : Fin 32) : (s.setMode m).pixel c r = s.pixel c r := rfl

/-! ## setKeyLatch -/

@[simp] theorem setKeyLatch_v (k : Fin 16) (b : Bool) : (s.setKeyLatch k b).v = s.v := rfl
@[simp] theorem setKeyLatch_i (k : Fin 16) (b : Bool) : (s.setKeyLatch k b).i = s.i := rfl
@[simp] theorem setKeyLatch_pc (k : Fin 16) (b : Bool) : (s.setKeyLatch k b).pc = s.pc := rfl
@[simp] theorem setKeyLatch_stack (k : Fin 16) (b : Bool) : (s.setKeyLatch k b).stack = s.stack := rfl
@[simp] theorem setKeyLatch_sp (k : Fin 16) (b : Bool) : (s.setKeyLatch k b).sp = s.sp := rfl
@[simp] theorem setKeyLatch_dt (k : Fin 16) (b : Bool) : (s.setKeyLatch k b).dt = s.dt := rfl
@[simp] theorem setKeyLatch_st (k : Fin 16) (b : Bool) : (s.setKeyLatch k b).st = s.st := rfl
@[simp] theorem setKeyLatch_key (k : Fin 16) (b : Bool) : (s.setKeyLatch k b).key = s.key.set k b := rfl
@[simp] theorem setKeyLatch_fb (k : Fin 16) (b : Bool) : (s.setKeyLatch k b).fb = s.fb := rfl
@[simp] theorem setKeyLatch_dirty (k : Fin 16) (b : Bool) : (s.setKeyLatch k b).dirty = s.dirty := rfl
@[simp] theorem setKeyLatch_mode (k : Fin 16) (b : Bool) : (s.setKeyLatch k b).mode = s.mode := rfl
@[simp] theorem setKeyLatch_mem (k : Fin 16) (b : Bool) : (s.setKeyLatch k b).mem = s.mem := rfl
@[simp] theorem setKeyLatch_params (k : Fin 16) (b : Bool) : (s.setKeyLatch k b).params = s.params := rfl
@[simp] theorem setKeyLatch_draws (k : Fin 16) (b : Bool) : (s.setKeyLatch k b).draws = s.draws := rfl
@[simp] theorem setKeyLatch_outcome (k : Fin 16) (b : Bool) : (s.setKeyLatch k b).outcome = s.outcome := rfl
@[simp] theorem setKeyLatch_reg (k : Fin 16) (b : Bool) (r : RegNum) : (s.setKeyLatch k b).reg r = s.reg r := rfl
@[simp] theorem setKeyLatch_readByte (k : Fin 16) (b : Bool) (a : Nat) : (s.setKeyLatch k b).readByte a = s.readByte a := rfl
@[simp] theorem setKeyLatch_pixel (k : Fin 16) (b : Bool) (c : Fin 64) (r : Fin 32) : (s.setKeyLatch k b).pixel c r = s.pixel c r := rfl

/-! ## nextDraw -/

@[simp] theorem nextDraw_v : (s.nextDraw).v = s.v := rfl
@[simp] theorem nextDraw_i : (s.nextDraw).i = s.i := rfl
@[simp] theorem nextDraw_pc : (s.nextDraw).pc = s.pc := rfl
@[simp] theorem nextDraw_stack : (s.nextDraw).stack = s.stack := rfl
@[simp] theorem nextDraw_sp : (s.nextDraw).sp = s.sp := rfl
@[simp] theorem nextDraw_dt : (s.nextDraw).dt = s.dt := rfl
@[simp] theorem nextDraw_st : (s.nextDraw).st = s.st := rfl
@[simp] theorem nextDraw_key : (s.nextDraw).key = s.key := rfl
@[simp] theorem nextDraw_fb : (s.nextDraw).fb = s.fb := rfl
@[simp] theorem nextDraw_dirty : (s.nextDraw).dirty = s.dirty := rfl
@[simp] theorem nextDraw_mode : (s.nextDraw).mode = s.mode := rfl
@[simp] theorem nextDraw_mem : (s.nextDraw).mem = s.mem := rfl
@[simp] theorem nextDraw_params : (s.nextDraw).params = s.params := rfl
@[simp] theorem nextDraw_draws : (s.nextDraw).draws = s.draws + 1 := rfl
@[simp] theorem nextDraw_outcome : (s.nextDraw).outcome = s.outcome := rfl
@[simp] theorem nextDraw_reg (k : RegNum) : (s.nextDraw).reg k = s.reg k := rfl
@[simp] theorem nextDraw_readByte (a : Nat) : (s.nextDraw).readByte a = s.readByte a := rfl
@[simp] theorem nextDraw_pixel (c : Fin 64) (r : Fin 32) : (s.nextDraw).pixel c r = s.pixel c r := rfl

/-! ## report -/

@[simp] theorem report_v (o : StepOutcome) : (s.report o).v = s.v := rfl
@[simp] theorem report_i (o : StepOutcome) : (s.report o).i = s.i := rfl
@[simp] theorem report_pc (o : StepOutcome) : (s.report o).pc = s.pc := rfl
@[simp] theorem report_stack (o : StepOutcome) : (s.report o).stack = s.stack := rfl
@[simp] theorem report_sp (o : StepOutcome) : (s.report o).sp = s.sp := rfl
@[simp] theorem report_dt (o : StepOutcome) : (s.report o).dt = s.dt := rfl
@[simp] theorem report_st (o : StepOutcome) : (s.report o).st = s.st := rfl
@[simp] theorem report_key (o : StepOutcome) : (s.report o).key = s.key := rfl
@[simp] theorem report_fb (o : StepOutcome) : (s.report o).fb = s.fb := rfl
@[simp] theorem report_dirty (o : StepOutcome) : (s.report o).dirty = s.dirty := rfl
@[simp] theorem report_mode (o : StepOutcome) : (s.report o).mode = s.mode := rfl
@[simp] theorem report_mem (o : StepOutcome) : (s.report o).mem = s.mem := rfl
@[simp] theorem report_params (o : StepOutcome) : (s.report o).params = s.params := rfl
@[simp] theorem report_draws (o : StepOutcome) : (s.report o).draws = s.draws := rfl
@[simp] theorem report_outcome (o : StepOutcome) : (s.report o).outcome = o := rfl
@[simp] theorem report_reg (o : StepOutcome) (k : RegNum) : (s.report o).reg k = s.reg k := rfl
@[simp] theorem report_readByte (o : StepOutcome) (a : Nat) : (s.report o).readByte a = s.readByte a := rfl
@[simp] theorem report_pixel (o : StepOutcome) (c : Fin 64) (r : Fin 32) : (s.report o).pixel c r = s.pixel c r := rfl

/-! ## advance -/

@[simp] theorem advance_v : (s.advance).v = s.v := rfl
@[simp] theorem advance_i : (s.advance).i = s.i := rfl
@[simp] theorem advance_pc : (s.advance).pc = s.pc + 2 := rfl
@[simp] theorem advance_stack : (s.advance).stack = s.stack := rfl
@[simp] theorem advance_sp : (s.advance).sp = s.sp := rfl
@[simp] theorem advance_dt : (s.advance).dt = s.dt := rfl
@[simp] theorem advance_st : (s.advance).st = s.st := rfl
@[simp] theorem advance_key : (s.advance).key = s.key := rfl
@[simp] theorem advance_fb : (s.advance).fb = s.fb := rfl
@[simp] theorem advance_dirty : (s.advance).dirty = s.dirty := rfl
@[simp] theorem advance_mode : (s.advance).mode = s.mode := rfl
@[simp] theorem advance_mem : (s.advance).mem = s.mem := rfl
@[simp] theorem advance_params : (s.advance).params = s.params := rfl
@[simp] theorem advance_draws : (s.advance).draws = s.draws := rfl
@[simp] theorem advance_outcome : (s.advance).outcome = s.outcome := rfl
@[simp] theorem advance_reg (k : RegNum) : (s.advance).reg k = s.reg k := rfl
@[simp] theorem advance_readByte (a : Nat) : (s.advance).readByte a = s.readByte a := rfl
@[simp] theorem advance_pixel (c : Fin 64) (r : Fin 32) : (s.advance).pixel c r = s.pixel c r := rfl

/-! ## setFlag -/

@[simp] theorem setFlag_v (b : Bool) : (s.setFlag b).v = s.v.set flagReg (flagByte b) := rfl
@[simp] theorem setFlag_i (b : Bool) : (s.setFlag b).i = s.i := rfl
@[simp] theorem setFlag_pc (b : Bool) : (s.setFlag b).pc = s.pc := rfl
@[simp] theorem setFlag_stack (b : Bool) : (s.setFlag b).stack = s.stack := rfl
@[simp] theorem setFlag_sp (b : Bool) : (s.setFlag b).sp = s.sp := rfl
@[simp] theorem setFlag_dt (b : Bool) : (s.setFlag b).dt = s.dt := rfl
@[simp] theorem setFlag_st (b : Bool) : (s.setFlag b).st = s.st := rfl
@[simp] theorem setFlag_key (b : Bool) : (s.setFlag b).key = s.key := rfl
@[simp] theorem setFlag_fb (b : Bool) : (s.setFlag b).fb = s.fb := rfl
@[simp] theorem setFlag_dirty (b : Bool) : (s.setFlag b).dirty = s.dirty := rfl
@[simp] theorem setFlag_mode (b : Bool) : (s.setFlag b).mode = s.mode := rfl
@[simp] theorem setFlag_mem (b : Bool) : (s.setFlag b).mem = s.mem := rfl
@[simp] theorem setFlag_params (b : Bool) : (s.setFlag b).params = s.params := rfl
@[simp] theorem setFlag_draws (b : Bool) : (s.setFlag b).draws = s.draws := rfl
@[simp] theorem setFlag_outcome (b : Bool) : (s.setFlag b).outcome = s.outcome := rfl
@[simp] theorem setFlag_readByte (b : Bool) (a : Nat) : (s.setFlag b).readByte a = s.readByte a := rfl
@[simp] theorem setFlag_pixel (b : Bool) (c : Fin 64) (r : Fin 32) : (s.setFlag b).pixel c r = s.pixel c r := rfl

/-! ## skipIf -/

@[simp] theorem skipIf_v (c : Bool) : (s.skipIf c).v = s.v := by cases c <;> rfl
@[simp] theorem skipIf_i (c : Bool) : (s.skipIf c).i = s.i := by cases c <;> rfl
@[simp] theorem skipIf_pc (c : Bool) : (s.skipIf c).pc = if c then s.pc + 4 else s.pc + 2 := by
  cases c <;> rfl
@[simp] theorem skipIf_stack (c : Bool) : (s.skipIf c).stack = s.stack := by cases c <;> rfl
@[simp] theorem skipIf_sp (c : Bool) : (s.skipIf c).sp = s.sp := by cases c <;> rfl
@[simp] theorem skipIf_dt (c : Bool) : (s.skipIf c).dt = s.dt := by cases c <;> rfl
@[simp] theorem skipIf_st (c : Bool) : (s.skipIf c).st = s.st := by cases c <;> rfl
@[simp] theorem skipIf_key (c : Bool) : (s.skipIf c).key = s.key := by cases c <;> rfl
@[simp] theorem skipIf_fb (c : Bool) : (s.skipIf c).fb = s.fb := by cases c <;> rfl
@[simp] theorem skipIf_dirty (c : Bool) : (s.skipIf c).dirty = s.dirty := by cases c <;> rfl
@[simp] theorem skipIf_mode (c : Bool) : (s.skipIf c).mode = s.mode := by cases c <;> rfl
@[simp] theorem skipIf_mem (c : Bool) : (s.skipIf c).mem = s.mem := by cases c <;> rfl
@[simp] theorem skipIf_params (c : Bool) : (s.skipIf c).params = s.params := by cases c <;> rfl
@[simp] theorem skipIf_draws (c : Bool) : (s.skipIf c).draws = s.draws := by cases c <;> rfl
@[simp] theorem skipIf_outcome (c : Bool) : (s.skipIf c).outcome = s.outcome := by cases c <;> rfl
@[simp] theorem skipIf_reg (c : Bool) (k : RegNum) : (s.skipIf c).reg k = s.reg k := by
  cases c <;> rfl
@[simp] theorem skipIf_readByte (c : Bool) (a : Nat) : (s.skipIf c).readByte a = s.readByte a := by
  cases c <;> rfl
@[simp] theorem skipIf_pixel (c : Bool) (x : Fin 64) (y : Fin 32) :
    (s.skipIf c).pixel x y = s.pixel x y := by cases c <;> rfl

/-! ## Reads after writes -/

@[simp] theorem setReg_reg_same (x : RegNum) (b : Byte) : (s.setReg x b).reg x = b := by
  simp [reg]

theorem setReg_reg_ne (x : RegNum) (b : Byte) (k : RegNum) (h : k ≠ x) :
    (s.setReg x b).reg k = s.reg k := by
  have : (x : Nat) ≠ (k : Nat) := fun e => h (Fin.ext e.symm)
  simp [reg, Vector.getElem_set_ne _ _ this]

theorem setReg_reg (x : RegNum) (b : Byte) (k : RegNum) :
    (s.setReg x b).reg k = if k = x then b else s.reg k := by
  by_cases h : k = x
  · simp [h]
  · simp [h, setReg_reg_ne]

@[simp] theorem setFlag_reg_flag (b : Bool) : (s.setFlag b).reg flagReg = flagByte b :=
  setReg_reg_same s flagReg _

theorem setFlag_reg_ne (b : Bool) (k : RegNum) (h : k ≠ flagReg) : (s.setFlag b).reg k = s.reg k :=
  setReg_reg_ne s flagReg _ k h

@[simp] theorem setMem_readByte (m : Memory) (a : Nat) : (s.setMem m).readByte a = m.read a := rfl

theorem setFb_pixel (f : Framebuffer) (x : Fin 64) (y : Fin 32) :
    (s.setFb f).pixel x y = f[y][x] := rfl

/-! ## The flag-writing pair -/

@[simp] theorem setResultAndFlag_i (x : RegNum) (r : Byte) (c : Bool) : (s.setResultAndFlag x r c).i = s.i := rfl
@[simp] theorem setResultAndFlag_pc (x : RegNum) (r : Byte) (c : Bool) : (s.setResultAndFlag x r c).pc = s.pc := rfl
@[simp] theorem setResultAndFlag_stack (x : RegNum) (r : Byte) (c : Bool) : (s.setResultAndFlag x r c).stack = s.stack := rfl
@[simp] theorem setResultAndFlag_sp (x : RegNum) (r : Byte) (c : Bool) : (s.setResultAndFlag x r c).sp = s.sp := rfl
@[simp] theorem setResultAndFlag_dt (x : RegNum) (r : Byte) (c : Bool) : (s.setResultAndFlag x r c).dt = s.dt := rfl
@[simp] theorem setResultAndFlag_st (x : RegNum) (r : Byte) (c : Bool) : (s.setResultAndFlag x r c).st = s.st := rfl
@[simp] theorem setResultAndFlag_key (x : RegNum) (r : Byte) (c : Bool) : (s.setResultAndFlag x r c).key = s.key := rfl
@[simp] theorem setResultAndFlag_fb (x : RegNum) (r : Byte) (c : Bool) : (s.setResultAndFlag x r c).fb = s.fb := rfl
@[simp] theorem setResultAndFlag_dirty (x : RegNum) (r : Byte) (c : Bool) : (s.setResultAndFlag x r c).dirty = s.dirty := rfl
@[simp] theorem setResultAndFlag_mode (x : RegNum) (r : Byte) (c : Bool) : (s.setResultAndFlag x r c).mode = s.mode := rfl
@[simp] theorem setResultAndFlag_mem (x : RegNum) (r : Byte) (c : Bool) : (s.setResultAndFlag x r c).mem = s.mem := rfl
@[simp] theorem setResultAndFlag_params (x : RegNum) (r : Byte) (c : Bool) : (s.setResultAndFlag x r c).params = s.params := rfl
@[simp] theorem setResultAndFlag_draws (x : RegNum) (r : Byte) (c : Bool) : (s.setResultAndFlag x r c).draws = s.draws := rfl
@[simp] theorem setResultAndFlag_outcome (x : RegNum) (r : Byte) (c : Bool) : (s.setResultAndFlag x r c).outcome = s.outcome := rfl
@[simp] theorem setResultAndFlag_readByte (x : RegNum) (r : Byte) (c : Bool) (a : Nat) :
    (s.setResultAndFlag x r c).readByte a = s.readByte a := rfl
@[simp] theorem setResultAndFlag_pixel (x : RegNum) (r : Byte) (c : Bool) (px : Fin 64) (py : Fin 32) :
    (s.setResultAndFlag x r c).pixel px py = s.pixel px py := rfl

/-- The flag is written last: V[0xF] ends holding it, also when the result went there. -/
@[simp] theorem setResultAndFlag_reg_flag (x : RegNum) (r : Byte) (c : Bool) :
    (s.setResultAndFlag x r c).reg flagReg = flagByte c := by simp [setResultAndFlag]

theorem setResultAndFlag_reg_result (x : RegNum) (r : Byte) (c : Bool) (h : x ≠ flagReg) :
    (s.setResultAndFlag x r c).reg x = r := by
  simp [setResultAndFlag, setFlag_reg_ne _ _ _ h]

theorem setResultAndFlag_reg_ne (x : RegNum) (r : Byte) (c : Bool) (k : RegNum) (hx : k ≠ x)
    (hf : k ≠ flagReg) : (s.setResultAndFlag x r c).reg k = s.reg k := by
  simp [setResultAndFlag, setFlag_reg_ne _ _ _ hf, setReg_reg_ne _ _ _ _ hx]

end Sys2Proof.Machine.State
end

