-- ==== Sys2Proof/Laws/Ops.lean ====
section
/-! SUPPORT. For each shared operation, what it can do, said once: later proofs cite these lemmas
and do not unfold the operation. -/

namespace Sys2Proof.Machine

/-! ## Ending a step -/

@[simp] theorem finish_eq (s : State) : finish s = .next (s.report .ok) := rfl

@[simp] theorem raise_eq (e : ErrorKind) (s : State) : raise e s = .next (s.report (.error e)) := rfl

@[simp] theorem requestHalt_eq (s : State) : requestHalt s = .next (s.report .haltRequested) := rfl

theorem raiseUnknown_abort (w : Word) (s : State) (h : s.params.unknownOpcodePolicy = .abort) :
    raiseUnknown w s = .next (s.report (.error (.unknownOpcode w))) := by simp [raiseUnknown, h]

theorem raiseUnknown_skip (w : Word) (s : State) (h : s.params.unknownOpcodePolicy = .skip) :
    raiseUnknown w s = .next (s.advance.report (.error (.unknownOpcode w))) := by
  simp [raiseUnknown, h]

/-! ## The call stack -/

theorem push?_full (s : State) (w : Word) (h : s.sp = 16) : s.push? w = none := by
  simp [State.push?, h]

/-- A push with room: the slot at `sp` holds the word, `sp` is one more, all else is the same. -/
theorem push?_room (s : State) (w : Word) (h : s.sp.val < 16) :
    s.push? w = some { s with stack := s.stack.set s.sp.val w h, sp := ⟨s.sp.val + 1, by omega⟩ } := by
  simp [State.push?, h]

theorem pop?_empty (s : State) (h : s.sp = 0) : s.pop? = none := by simp [State.pop?, h]

/-- A pop of a live slot: the word in it, `sp` one less, all else the same, the slot too. -/
theorem pop?_live (s : State) (h : 0 < s.sp.val) :
    s.pop? = some (s.stack[s.sp.val - 1]'(by omega), { s with sp := ⟨s.sp.val - 1, by omega⟩ }) := by
  simp [State.pop?, h]

/-- Everything a push can do. -/
theorem push?_cases (s : State) (w : Word) :
    (∃ h : s.sp.val < 16, s.push? w =
      some { s with stack := s.stack.set s.sp.val w h, sp := ⟨s.sp.val + 1, by omega⟩ }) ∨
    (s.sp = 16 ∧ s.push? w = none) := by
  by_cases h : s.sp.val < 16
  · exact .inl ⟨h, push?_room s w h⟩
  · have e : s.sp = 16 := Fin.ext (show s.sp.val = 16 by omega)
    exact .inr ⟨e, push?_full s w e⟩

/-- Everything a pop can do. -/
theorem pop?_cases (s : State) :
    (∃ h : 0 < s.sp.val, s.pop? =
      some (s.stack[s.sp.val - 1]'(by omega), { s with sp := ⟨s.sp.val - 1, by omega⟩ })) ∨
    (s.sp = 0 ∧ s.pop? = none) := by
  by_cases h : 0 < s.sp.val
  · exact .inl ⟨h, pop?_live s h⟩
  · have e : s.sp = 0 := Fin.ext (show s.sp.val = 0 by omega)
    exact .inr ⟨e, pop?_empty s e⟩

/-! ## Memory through an address -/

theorem checkBounds_inside (a n : Nat) (s : State) (k : Result) (h : n = 0 ∨ a + n ≤ 4096) :
    checkBounds a n s k = k := by
  unfold checkBounds Config.memSize
  rw [if_neg]
  omega

theorem checkBounds_outside (a n : Nat) (s : State) (k : Result) (hn : 0 < n)
    (h : 4096 < a + n) : checkBounds a n s k = raise (.outOfBounds (a + n - 1)) s := by
  unfold checkBounds Config.memSize
  rw [if_pos ⟨hn, by omega⟩]

/-- An access inside memory, or of no bytes, goes on with the bytes there. -/
theorem loadBytes_inside (a n : Nat) (s : State) (k : List Byte → Result)
    (h : n = 0 ∨ a + n ≤ 4096) :
    loadBytes a n s k = k ((List.range' a n).map s.readByte) := by
  rw [loadBytes, checkBounds_inside _ _ _ _ h]
  rcases h with rfl | h
  · rfl
  · rw [Memory.readBytes?_eq _ _ _ h]; rfl

/-- An access that reaches outside memory raises its highest address, whatever would follow. -/
theorem loadBytes_outside (a n : Nat) (s : State) (k : List Byte → Result) (hn : 0 < n)
    (h : 4096 < a + n) : loadBytes a n s k = raise (.outOfBounds (a + n - 1)) s :=
  checkBounds_outside _ _ _ _ hn h

/-- What memory is after a store inside it: the bytes at their addresses, every other address as
before, canonical if it was. -/
structure Stored (a : Nat) (bs : List Byte) (m m' : Memory) : Prop where
  inside : Memory.wf m → ∀ k (hk : k < bs.length), m'.read (a + k) = bs[k]
  outside : ∀ k, k < a ∨ a + bs.length ≤ k → m'.read k = m.read k
  wf : Memory.wf m → Memory.wf m'

/-- A store inside memory goes on with the state in which the bytes are stored. -/
theorem storeBytes_inside (a : Nat) (bs : List Byte) (s : State) (k : State → Result)
    (h : a + bs.length ≤ 4096) :
    ∃ m, Stored a bs s.mem m ∧ storeBytes a bs s k = k (s.setMem m) := by
  obtain ⟨m, hm⟩ := Option.isSome_iff_exists.mp (Memory.writeBytes?_isSome a bs s.mem h)
  refine ⟨m, ⟨fun hw i hi => Memory.read_writeBytes?_inside a bs _ _ hm hw i hi, fun i hi =>
    Memory.read_writeBytes?_outside a bs _ _ hm i hi, Memory.wf_writeBytes? a bs _ _ hm⟩, ?_⟩
  rw [storeBytes, checkBounds_inside _ _ _ _ (.inr h), hm]

theorem storeBytes_outside (a : Nat) (bs : List Byte) (s : State) (k : State → Result)
    (hn : 0 < bs.length) (h : 4096 < a + bs.length) :
    storeBytes a bs s k = raise (.outOfBounds (a + bs.length - 1)) s :=
  checkBounds_outside _ _ _ _ hn h

/-- Everything a load can do. -/
theorem loadBytes_cases (a n : Nat) (s : State) (k : List Byte → Result) :
    ((n = 0 ∨ a + n ≤ 4096) ∧ loadBytes a n s k = k ((List.range' a n).map s.readByte)) ∨
    (0 < n ∧ 4096 < a + n ∧ loadBytes a n s k = .next (s.report (.error (.outOfBounds (a + n - 1))))) := by
  by_cases h : n = 0 ∨ a + n ≤ 4096
  · exact .inl ⟨h, loadBytes_inside a n s k h⟩
  · exact .inr ⟨by omega, by omega, loadBytes_outside a n s k (by omega) (by omega)⟩

/-- Everything a store of at least one byte can do. -/
theorem storeBytes_cases (a : Nat) (bs : List Byte) (s : State) (k : State → Result)
    (hn : 0 < bs.length) :
    (a + bs.length ≤ 4096 ∧ ∃ m, Stored a bs s.mem m ∧ storeBytes a bs s k = k (s.setMem m)) ∨
    (4096 < a + bs.length ∧
      storeBytes a bs s k = .next (s.report (.error (.outOfBounds (a + bs.length - 1))))) := by
  by_cases h : a + bs.length ≤ 4096
  · exact .inl ⟨h, storeBytes_inside a bs s k h⟩
  · exact .inr ⟨by omega, storeBytes_outside a bs s k hn (by omega)⟩

/-! ## Fetch -/

theorem fetchThen_inside (s : State) (k : Word → Result) (h : s.canFetch) :
    fetchThen s k = k s.fetchedWord := by
  rw [fetchThen, if_neg (Nat.not_le.mpr h), Memory.readWord?_eq _ _ h]
  rfl

theorem fetchThen_outside (s : State) (k : Word → Result) (h : ¬ s.canFetch) :
    fetchThen s k = raise (.outOfBounds s.pc.toNat) s := by
  rw [fetchThen, if_pos (Nat.not_lt.mp h)]

/-- Everything a fetch can do. -/
theorem fetchThen_cases (s : State) (k : Word → Result) :
    (s.canFetch ∧ fetchThen s k = k s.fetchedWord) ∨
    (¬ s.canFetch ∧ fetchThen s k = .next (s.report (.error (.outOfBounds s.pc.toNat)))) := by
  by_cases h : s.canFetch
  · exact .inl ⟨h, fetchThen_inside s k h⟩
  · exact .inr ⟨h, fetchThen_outside s k h⟩

/-! ## Blocks of registers -/

@[simp] theorem regsUpTo_length (s : State) (x : RegNum) : (s.regsUpTo x).length = x.val + 1 := by
  simp [State.regsUpTo]

theorem regsUpTo_getElem (s : State) (x : RegNum) (k : Nat) (h : k < (s.regsUpTo x).length) :
    (s.regsUpTo x)[k] = s.reg ⟨k, by simp at h; omega⟩ := by
  simp [State.regsUpTo, State.reg]

/-- Loading registers changes the registers only. -/
theorem setRegsFrom_eq (k : Nat) (bs : List Byte) (s : State) :
    ∃ v, State.setRegsFrom k bs s = { s with v := v } := by
  induction bs generalizing k s with
  | nil => exact ⟨s.v, rfl⟩
  | cons b bs ih =>
    obtain ⟨v, hv⟩ := ih (k + 1) (if h : k < 16 then s.setReg ⟨k, h⟩ b else s)
    refine ⟨v, hv.trans ?_⟩
    split <;> rfl

/-- A register below the block or above it keeps its value; one in it gets its byte. -/
theorem setRegsFrom_reg (k : Nat) (bs : List Byte) (s : State) (hk : k + bs.length ≤ 16) (j : RegNum) :
    (State.setRegsFrom k bs s).reg j =
      if h : k ≤ j.val ∧ j.val - k < bs.length then bs[j.val - k]'h.2 else s.reg j := by
  induction bs generalizing k s with
  | nil => simp [State.setRegsFrom]
  | cons b bs ih =>
    simp only [List.length_cons] at hk
    simp only [State.setRegsFrom, show k < 16 by omega, dif_pos]
    rw [ih (k + 1) _ (by omega)]
    by_cases hj : j.val = k
    · subst hj
      rw [dif_neg (by omega), dif_pos ⟨le_refl _, by simp⟩]
      simp
    · rw [State.setReg_reg_ne _ _ _ _ (fun e => hj (by rw [e]))]
      by_cases hin : k ≤ j.val ∧ j.val - k < (b :: bs).length
      · simp only [List.length_cons] at hin
        have e : j.val - k = (j.val - (k + 1)) + 1 := by omega
        rw [dif_pos (by omega), dif_pos (by simpa using hin)]
        simp [e]
      · simp only [List.length_cons] at hin
        rw [dif_neg (by omega), dif_neg (by simpa using hin)]

/-! ## Keys -/

theorem withKey_in (k : Byte) (s : State) (f : Bool → Result) (h : k.toNat < 16) :
    withKey k s f = f (s.key[k.toNat]'h) := by simp [withKey, h]

theorem withKey_out (k : Byte) (s : State) (f : Bool → Result) (h : 16 ≤ k.toNat) :
    withKey k s f = raise (.outOfBounds k.toNat) s := by
  rw [withKey, dif_neg (by omega)]

/-- Everything a key test can do. -/
theorem withKey_cases (k : Byte) (s : State) (f : Bool → Result) :
    (∃ h : k.toNat < 16, withKey k s f = f (s.key[k.toNat]'h)) ∨
    (15 < k.toNat ∧ withKey k s f = .next (s.report (.error (.outOfBounds k.toNat)))) := by
  by_cases h : k.toNat < 16
  · exact .inl ⟨h, withKey_in k s f h⟩
  · exact .inr ⟨by omega, withKey_out k s f (by omega)⟩

theorem lowestPressed_none (s : State) : s.lowestPressed = none ↔ ∀ k : Fin 16, s.key[k] = false := by
  simp [State.lowestPressed, keyNumbers, Fin.forall_fin_succ]

/-- The key found is pressed, and no lower one is. -/
theorem lowestPressed_some (s : State) (k : Fin 16) (h : s.lowestPressed = some k) :
    s.key[k] = true ∧ ∀ j : Fin 16, j < k → s.key[j] = false := by
  obtain ⟨hk, as, bs, hsplit, has⟩ := List.find?_eq_some_iff_append.mp h
  refine ⟨hk, fun j hj => ?_⟩
  have hmem : j ∈ as := by
    have hsorted : keyNumbers.Pairwise (· < ·) := by decide
    have hevery : ∀ i : Fin 16, i ∈ keyNumbers := by decide
    have hall := hevery j
    rw [hsplit] at hsorted hall
    rcases List.mem_append.mp hall with h1 | h1
    · exact h1
    · exfalso
      have hkb := (List.pairwise_append.mp hsorted).2.1
      rcases List.mem_cons.mp h1 with rfl | h1
      · exact lt_irrefl _ hj
      · exact lt_asymm hj ((List.pairwise_cons.mp hkb).1 j h1)
  simpa using has j hmem

end Sys2Proof.Machine
end

