-- ==== Sys2Proof/Laws/Display.lean ====
section
/-! SUPPORT. What drawing does to each pixel, and when it reports a collision. -/

namespace Sys2Proof.Machine

/-- Pixel `(x, y)` of a canvas. -/
def Canvas.pixel (c : Canvas) (x : Fin 64) (y : Fin 32) : Bool := c.fb[y][x]

@[simp] theorem blankScreen_pixel (s : State) (x : Fin 64) (y : Fin 32) :
    (s.setFb blankScreen).pixel x y = false := by
  simp [State.setFb_pixel, blankScreen]

theorem Canvas.hit_pixel (px : Fin 64) (py : Fin 32) (c : Canvas) (x : Fin 64) (y : Fin 32) :
    (c.hit px py).pixel x y = (c.pixel x y ^^ decide (x = px ∧ y = py)) := by
  by_cases hy : y = py
  · subst hy
    by_cases hx : x = px
    · subst hx; simp [Canvas.hit, Canvas.pixel]
    · have : (px : Nat) ≠ (x : Nat) := fun e => hx (Fin.ext e.symm)
      simp [Canvas.hit, Canvas.pixel, hx, Vector.getElem_set_ne _ _ this]
  · have : (py : Nat) ≠ (y : Nat) := fun e => hy (Fin.ext e.symm)
    simp [Canvas.hit, Canvas.pixel, hy, Vector.getElem_set_ne _ _ this]

@[simp] theorem Canvas.hit_collision (px : Fin 64) (py : Fin 32) (c : Canvas) :
    (c.hit px py).collision = (c.collision || c.pixel px py) := rfl

/-- The bit of a sprite row that falls on column `x` when the row is drawn from column `ox`: the
column offset is `x - ox` modulo 64 (`43_display.md` R94). -/
def rowCovers (b : Byte) (ox : Nat) (x : Fin 64) : Bool :=
  decide ((x.val + 64 - ox % 64) % 64 < 8) && b.getLsbD (7 - (x.val + 64 - ox % 64) % 64)

theorem Canvas.drawColumn_pixel (b : Byte) (ox : Nat) (py : Fin 32) (c : Canvas) (col : Nat)
    (x : Fin 64) (y : Fin 32) :
    (c.drawColumn b ox py col).pixel x y =
      (c.pixel x y ^^ (b.getLsbD (7 - col) && decide (x = Fin.ofNat 64 (ox + col) ∧ y = py))) := by
  unfold Canvas.drawColumn
  split <;> simp_all [Canvas.hit_pixel]

/-- Drawing the columns listed hits pixel `(x, y)` once for each of them whose bit is 1 and which
falls there. -/
theorem Canvas.drawColumns_other_row (b : Byte) (ox : Nat) (py : Fin 32) (cols : List Nat) (c : Canvas)
    (x : Fin 64) (y : Fin 32) (hy : y ≠ py) :
    (cols.foldl (Canvas.drawColumn b ox py) c).pixel x y = c.pixel x y := by
  induction cols generalizing c with
  | nil => rfl
  | cons col cols ih => simp [ih, Canvas.drawColumn_pixel, hy]

/-- The columns, each drawn at most once: the pixel is flipped exactly when its own column is listed
and that bit is 1. -/
theorem Canvas.drawColumns_row (b : Byte) (ox : Nat) (py : Fin 32) (cols : List Nat) (c : Canvas)
    (x : Fin 64) (hc : cols.Nodup) (h8 : ∀ col ∈ cols, col < 8) :
    (cols.foldl (Canvas.drawColumn b ox py) c).pixel x py =
      (c.pixel x py ^^ (decide ((x.val + 64 - ox % 64) % 64 ∈ cols) &&
        b.getLsbD (7 - (x.val + 64 - ox % 64) % 64))) := by
  induction cols generalizing c with
  | nil => simp
  | cons col cols ih =>
    obtain ⟨hnot, hnd⟩ := List.nodup_cons.mp hc
    have h8col := h8 col (by simp)
    have hx := x.isLt
    rw [List.foldl_cons, ih _ hnd (fun d hd => h8 d (by simp [hd])), Canvas.drawColumn_pixel]
    have hiff : (x = Fin.ofNat 64 (ox + col)) ↔ (x.val + 64 - ox % 64) % 64 = col := by
      rw [Fin.ext_iff, Fin.val_ofNat]; omega
    simp only [hiff, and_true, List.mem_cons]
    generalize (x.val + 64 - ox % 64) % 64 = d at hnot ⊢
    by_cases he : d = col
    · subst he; simp [hnot]
    · simp [he]

theorem any_congr_mem {α : Type} {p q : α → Bool} (l : List α) (h : ∀ a ∈ l, p a = q a) :
    l.any p = l.any q := by
  induction l with
  | nil => rfl
  | cons a l ih =>
    rw [List.any_cons, List.any_cons, h a (by simp), ih fun d hd => h d (by simp [hd])]

/-- The collision of a row: it was there before, or a listed column with a 1 bit falls on a set
pixel. -/
theorem Canvas.drawColumns_collision (b : Byte) (ox : Nat) (py : Fin 32) (cols : List Nat) (c : Canvas)
    (hc : cols.Nodup) (h8 : ∀ col ∈ cols, col < 8) :
    (cols.foldl (Canvas.drawColumn b ox py) c).collision =
      (c.collision || cols.any fun col => b.getLsbD (7 - col) && c.pixel (Fin.ofNat 64 (ox + col)) py) := by
  induction cols generalizing c with
  | nil => simp
  | cons col cols ih =>
    obtain ⟨hnot, hnd⟩ := List.nodup_cons.mp hc
    have h8' : ∀ d ∈ cols, d < 8 := fun d hd => h8 d (by simp [hd])
    have h8col := h8 col (by simp)
    rw [List.foldl_cons, ih _ hnd h8']
    have hrest : ∀ d ∈ cols, (b.getLsbD (7 - d) &&
        (c.drawColumn b ox py col).pixel (Fin.ofNat 64 (ox + d)) py) =
        (b.getLsbD (7 - d) && c.pixel (Fin.ofNat 64 (ox + d)) py) := by
      intro d hd
      have hne : Fin.ofNat 64 (ox + d) ≠ Fin.ofNat 64 (ox + col) := by
        have := h8' d hd
        have : d ≠ col := fun e => hnot (e ▸ hd)
        rw [Ne, Fin.ext_iff, Fin.val_ofNat, Fin.val_ofNat]
        omega
      rw [Canvas.drawColumn_pixel]
      simp only [hne, false_and, decide_false, Bool.and_false, Bool.xor_false]
    rw [List.any_cons, ← Bool.or_assoc, any_congr_mem cols hrest]
    congr 1
    unfold Canvas.drawColumn
    split <;> simp_all

theorem spriteColumns_mem (col : Nat) : col ∈ spriteColumns ↔ col < 8 := by
  simp [spriteColumns]; omega

theorem Canvas.drawRow_other (b : Byte) (ox : Nat) (py : Fin 32) (c : Canvas) (x : Fin 64) (y : Fin 32)
    (hy : y ≠ py) : (c.drawRow b ox py).pixel x y = c.pixel x y :=
  Canvas.drawColumns_other_row b ox py _ c x y hy

theorem Canvas.drawRow_pixel (b : Byte) (ox : Nat) (py : Fin 32) (c : Canvas) (x : Fin 64) :
    (c.drawRow b ox py).pixel x py = (c.pixel x py ^^ rowCovers b ox x) := by
  have := Canvas.drawColumns_row b ox py spriteColumns c x (by decide)
    (fun col h => (spriteColumns_mem col).mp h)
  simp only [spriteColumns_mem] at this
  exact this

theorem Canvas.drawRow_collision (b : Byte) (ox : Nat) (py : Fin 32) (c : Canvas) :
    (c.drawRow b ox py).collision = true ↔
      c.collision = true ∨ ∃ x, rowCovers b ox x = true ∧ c.pixel x py = true := by
  rw [Canvas.drawRow, Canvas.drawColumns_collision b ox py spriteColumns c (by decide)
    (fun col h => (spriteColumns_mem col).mp h), Bool.or_eq_true, List.any_eq_true]
  refine or_congr_right ⟨fun ⟨col, hm, h⟩ => ?_, fun ⟨x, hr, hx⟩ => ?_⟩
  · have h8 := (spriteColumns_mem col).mp hm
    obtain ⟨hb, hp⟩ := Bool.and_eq_true_iff.mp h
    refine ⟨Fin.ofNat 64 (ox + col), ?_, hp⟩
    have e : ((Fin.ofNat 64 (ox + col)).val + 64 - ox % 64) % 64 = col := by
      rw [Fin.val_ofNat]; omega
    rw [rowCovers, e, hb, decide_eq_true h8]; rfl
  · obtain ⟨h8, hb⟩ := Bool.and_eq_true_iff.mp hr
    have h8 := of_decide_eq_true h8
    refine ⟨_, (spriteColumns_mem _).mpr h8, ?_⟩
    have e : Fin.ofNat 64 (ox + (x.val + 64 - ox % 64) % 64) = x := by
      have := x.isLt
      rw [Fin.ext_iff, Fin.val_ofNat]; omega
    rw [hb, e, hx]; rfl

/-- The sprite bit that falls on pixel `(x, y)` when the rows are drawn from `(ox, oy)`. -/
def spriteCovers (bs : List Byte) (ox oy : Nat) (x : Fin 64) (y : Fin 32) : Bool :=
  match bs[(y.val + 32 - oy % 32) % 32]? with
  | some b => rowCovers b ox x
  | none => false

/-- A pixel of the row drawn first is covered by the first byte, any other by the rows after it. -/
theorem spriteCovers_cons (b : Byte) (bs : List Byte) (ox oy : Nat) (x : Fin 64)
    (y : Fin 32) :
    spriteCovers (b :: bs) ox oy x y =
      if y = Fin.ofNat 32 oy then rowCovers b ox x else spriteCovers bs ox (oy + 1) x y := by
  have hy := y.isLt
  have hiff : y = Fin.ofNat 32 oy ↔ (y.val + 32 - oy % 32) % 32 = 0 := by
    rw [Fin.ext_iff, Fin.val_ofNat]; omega
  by_cases h0 : (y.val + 32 - oy % 32) % 32 = 0
  · rw [if_pos (hiff.mpr h0)]; simp [spriteCovers, h0]
  · rw [if_neg (fun e => h0 (hiff.mp e))]
    have e : (y.val + 32 - oy % 32) % 32 = (y.val + 32 - (oy + 1) % 32) % 32 + 1 := by omega
    simp [spriteCovers, e]

/-- The row drawn first is not covered again: a sprite has fewer rows than the screen. -/
theorem spriteCovers_first_row (bs : List Byte) (ox oy : Nat) (h : bs.length < 32) (x : Fin 64) :
    spriteCovers bs ox (oy + 1) x (Fin.ofNat 32 oy) = false := by
  have e : ((Fin.ofNat 32 oy).val + 32 - (oy + 1) % 32) % 32 = 31 := by
    rw [Fin.val_ofNat]; omega
  rw [spriteCovers, e, List.getElem?_eq_none (by omega)]

/-- Drawing flips exactly the pixels the sprite covers. -/
theorem Canvas.drawRows_pixel (ox oy : Nat) (bs : List Byte) (c : Canvas) (h : bs.length < 32)
    (x : Fin 64) (y : Fin 32) :
    (Canvas.drawRows ox oy bs c).pixel x y = (c.pixel x y ^^ spriteCovers bs ox oy x y) := by
  induction bs generalizing oy c with
  | nil => simp [Canvas.drawRows, spriteCovers]
  | cons b bs ih =>
    have hl : bs.length < 32 := by simp at h; omega
    rw [Canvas.drawRows, ih _ _ hl, spriteCovers_cons b bs ox oy]
    by_cases hy : y = Fin.ofNat 32 oy
    · rw [if_pos hy, hy, spriteCovers_first_row bs ox oy hl, Canvas.drawRow_pixel, Bool.xor_false]
    · rw [if_neg hy, Canvas.drawRow_other _ _ _ _ _ _ hy]

/-- A collision is reported exactly when a covered pixel was set before. -/
theorem Canvas.drawRows_collision (ox oy : Nat) (bs : List Byte) (c : Canvas) (h : bs.length < 32) :
    (Canvas.drawRows ox oy bs c).collision = true ↔
      c.collision = true ∨ ∃ x y, spriteCovers bs ox oy x y = true ∧ c.pixel x y = true := by
  induction bs generalizing oy c with
  | nil => simp [Canvas.drawRows, spriteCovers]
  | cons b bs ih =>
    have hl : bs.length < 32 := by simp at h; omega
    rw [Canvas.drawRows, ih _ _ hl, Canvas.drawRow_collision, or_assoc]
    refine or_congr_right ⟨?_, ?_⟩
    · rintro (⟨x, hr, hx⟩ | ⟨x, y, hc, hp⟩)
      · exact ⟨x, _, by rw [spriteCovers_cons b bs ox oy, if_pos rfl, hr], hx⟩
      · have hy : y ≠ Fin.ofNat 32 oy := by
          rintro rfl
          rw [spriteCovers_first_row bs ox oy hl] at hc
          cases hc
        exact ⟨x, y, by rw [spriteCovers_cons b bs ox oy, if_neg hy, hc],
          by rwa [Canvas.drawRow_other _ _ _ _ _ _ hy] at hp⟩
    · rintro ⟨x, y, hc, hp⟩
      rw [spriteCovers_cons b bs ox oy] at hc
      by_cases hy : y = Fin.ofNat 32 oy
      · rw [if_pos hy] at hc; exact .inl ⟨x, hc, hy ▸ hp⟩
      · rw [if_neg hy] at hc
        exact .inr ⟨x, y, hc, by rwa [Canvas.drawRow_other _ _ _ _ _ _ hy]⟩

end Sys2Proof.Machine
end

