-- ==== Sys2Proof/Laws/PerInstr.lean ====
section
/-! SUPPORT. Statements about every instruction as syntax, one lemma per constructor. -/

namespace Sys2Proof.Laws.RoundTrip

/-- On a machine that has the instruction its word decodes to it, with every operand as it was. -/
def Statement (i : Instr) : Prop :=
  ∀ st, i.wellFormed st = true → decode st (encode i) = .instr i

theorem cls : Statement (.cls) := by
  intro st _; simp [encode, decode, decodeClass0]

theorem ret : Statement (.ret) := by
  intro st _; simp [encode, decode, decodeClass0]

theorem exit : Statement (.exit) := by
  intro st _; simp [encode, decode, decodeClass0]

theorem low : Statement (.low) := by
  intro st _; simp [encode, decode, decodeClass0]

theorem high : Statement (.high) := by
  intro st _; simp [encode, decode, decodeClass0]

theorem jp (addr : Addr12) : Statement (.jp addr) := by
  intro st _; simp [encode, decode]

theorem call (addr : Addr12) : Statement (.call addr) := by
  intro st _; simp [encode, decode]

theorem seImm (x : RegNum) (nn : Byte) : Statement (.seImm x nn) := by
  intro st _; simp [encode, decode]

theorem sneImm (x : RegNum) (nn : Byte) : Statement (.sneImm x nn) := by
  intro st _; simp [encode, decode]

theorem seReg (x y : RegNum) : Statement (.seReg x y) := by
  intro st _; simp [encode, decode]

theorem ldImm (x : RegNum) (nn : Byte) : Statement (.ldImm x nn) := by
  intro st _; simp [encode, decode]

theorem addImm (x : RegNum) (nn : Byte) : Statement (.addImm x nn) := by
  intro st _; simp [encode, decode]

theorem ldReg (x y : RegNum) : Statement (.ldReg x y) := by
  intro st _; simp [encode, decode, decodeClass8]

theorem orReg (x y : RegNum) : Statement (.orReg x y) := by
  intro st _; simp [encode, decode, decodeClass8]

theorem andReg (x y : RegNum) : Statement (.andReg x y) := by
  intro st _; simp [encode, decode, decodeClass8]

theorem xorReg (x y : RegNum) : Statement (.xorReg x y) := by
  intro st _; simp [encode, decode, decodeClass8]

theorem addReg (x y : RegNum) : Statement (.addReg x y) := by
  intro st _; simp [encode, decode, decodeClass8]

theorem subReg (x y : RegNum) : Statement (.subReg x y) := by
  intro st _; simp [encode, decode, decodeClass8]

theorem shr (x : RegNum) : Statement (.shr x) := by
  intro st _; simp [encode, decode, decodeClass8]

theorem subnReg (x y : RegNum) : Statement (.subnReg x y) := by
  intro st _; simp [encode, decode, decodeClass8]

theorem shl (x : RegNum) : Statement (.shl x) := by
  intro st _; simp [encode, decode, decodeClass8]

theorem sneReg (x y : RegNum) : Statement (.sneReg x y) := by
  intro st _; simp [encode, decode]

theorem ldI (addr : Addr12) : Statement (.ldI addr) := by
  intro st _; simp [encode, decode]

theorem jpV0 (addr : Addr12) : Statement (.jpV0 addr) := by
  intro st _; simp [encode, decode]

theorem rnd (x : RegNum) (nn : Byte) : Statement (.rnd x nn) := by
  intro st _; simp [encode, decode]

theorem drw (x y : RegNum) (n : Fin 16) : Statement (.drw x y n) := by
  intro st _; simp [encode, decode]

theorem skp (x : RegNum) : Statement (.skp x) := by
  intro st _; simp [encode, decode, decodeClassE]

theorem sknp (x : RegNum) : Statement (.sknp x) := by
  intro st _; simp [encode, decode, decodeClassE]

theorem ldVxDT (x : RegNum) : Statement (.ldVxDT x) := by
  intro st _; simp [encode, decode, decodeClassF]

theorem ldVxK (x : RegNum) : Statement (.ldVxK x) := by
  intro st _; simp [encode, decode, decodeClassF]

theorem ldDTVx (x : RegNum) : Statement (.ldDTVx x) := by
  intro st _; simp [encode, decode, decodeClassF]

theorem addI (x : RegNum) : Statement (.addI x) := by
  intro st _; simp [encode, decode, decodeClassF]

theorem ldF (x : RegNum) : Statement (.ldF x) := by
  intro st _; simp [encode, decode, decodeClassF]

theorem ldB (x : RegNum) : Statement (.ldB x) := by
  intro st _; simp [encode, decode, decodeClassF]

theorem storeRegs (x : RegNum) : Statement (.storeRegs x) := by
  intro st _; simp [encode, decode, decodeClassF]

theorem loadRegs (x : RegNum) : Statement (.loadRegs x) := by
  intro st _; simp [encode, decode, decodeClassF]

theorem ldSTVx (x : RegNum) : Statement (.ldSTVx x) := by
  intro st h; rw [Instr.wellFormed] at h; simp [encode, decode, decodeClassF, h]

end Sys2Proof.Laws.RoundTrip
end

