-- ==== Sys2Proof/Laws/Step.lean ====
section
/-! SUPPORT. What a step and an instruction can do, said once. -/

namespace Sys2Proof.Machine

/-- Everything a step can do: the fetch fails, the word is unknown, or the decoded instruction runs. -/
theorem step_cases (s : State) :
    (¬ s.canFetch ∧ step s = .next (s.report (.error (.outOfBounds s.pc.toNat)))) ∨
    (s.canFetch ∧ decode s.params.hasSoundTimer s.fetchedWord = .unknown s.fetchedWord ∧
      step s = raiseUnknown s.fetchedWord s) ∨
    (∃ i, s.canFetch ∧ decode s.params.hasSoundTimer s.fetchedWord = .instr i ∧ step s = exec i s) := by
  rcases fetchThen_cases s (fun w => runWord w s) with ⟨h, e⟩ | ⟨h, e⟩
  · right
    cases hd : decode s.params.hasSoundTimer s.fetchedWord with
    | instr i => exact .inr ⟨i, h, rfl, e.trans (by simp [runWord, hd])⟩
    | unknown w =>
      obtain rfl := decode_unknown _ _ _ hd
      exact .inl ⟨h, rfl, e.trans (by simp [runWord, hd])⟩
  · exact .inl ⟨h, e⟩

open State

/-- LD ST,Vx is run only where there is a sound timer. -/
theorem runs_ldSTVx {s : State} {i : Instr} (h : Runs s i) (x : RegNum) (hi : i = .ldSTVx x) :
    s.params.hasSoundTimer = true := by
  have := decode_wf _ _ _ h.2
  subst hi; exact this

/-- A step runs one instruction. -/
theorem runs_unique {s : State} {i j : Instr} (h : Runs s i) (h' : Runs s j) : i = j := by
  have := h.2.symm.trans h'.2; cases this; rfl

/-- Everything a step that answers a next state did: a failed fetch, an unknown word, or the decoded
instruction. -/
theorem step_inv (s t : State) (h : step s = .next t) :
   (¬ s.canFetch ∧ t = s.report (.error (.outOfBounds s.pc.toNat))) ∨
   (s.canFetch ∧ decode s.params.hasSoundTimer s.fetchedWord = .unknown s.fetchedWord ∧ 
      ((s.params.unknownOpcodePolicy = .abort ∧ t = s.report (.error (.unknownOpcode s.fetchedWord))) ∨
       (s.params.unknownOpcodePolicy = .skip ∧ t = s.advance.report (.error (.unknownOpcode s.fetchedWord))))) ∨
   ∃ i, Runs s i ∧ exec i s = .next t := by
  rcases step_cases s with ⟨h', e⟩ | ⟨h', hd, e⟩ | ⟨i, h', hd, e⟩ <;> rw [e] at h
  · cases h; exact .inl ⟨h', rfl⟩
  · refine .inr (.inl ⟨h', hd, ?_⟩)
    rw [raiseUnknown] at h; split at h <;> cases h
    · exact .inl ⟨‹_›, rfl⟩
    · exact .inr ⟨‹_›, rfl⟩
  · exact .inr (.inr ⟨i, ⟨h', hd⟩, h⟩)

/-- How an instruction can end: with its own `OutOfBounds`, a full or an empty stack, a halt, as the
unknown word FX18 where there is no sound timer, or with `Ok`. -/
theorem exec_ends (i : Instr) (s t : State) (h : exec i s = .next t) :
    (∃ a, HandlerOutOfBounds s a i ∧ t = s.report (.error (.outOfBounds a))) ∨
    ((∃ a, i = .call a) ∧ s.sp = 16 ∧ t = s.report (.error .stackOverflow)) ∨
    (i = .ret ∧ s.sp = 0 ∧ t = s.report (.error .stackUnderflow)) ∨
    (i = .exit ∧ t = s.report .haltRequested) ∨
    ((∃ x, i = .ldSTVx x) ∧ s.params.hasSoundTimer = false ∧ exec i s = raiseUnknown (encode i) s) ∨
    (t.outcome = .ok ∧ (∀ a, ¬ HandlerOutOfBounds s a i) ∧ i ≠ .exit) := by
  cases i with
  | ret =>
    rcases pop?_cases s with ⟨h', e⟩ | ⟨h', e⟩ <;> simp [exec, execRet, e] at h
    · subst h; simp [HandlerOutOfBounds]
    · subst h; simp [h']
  | call a =>
    rcases push?_cases s s.pc with ⟨h', e⟩ | ⟨h', e⟩ <;> simp [exec, execCall, e] at h
    · subst h; simp [HandlerOutOfBounds]
    · subst h; simp [h']
  | exit => simp [exec, execExit] at h; simp [h]
  | drw x y n =>
    simp only [exec, execDrw] at h
    rcases loadBytes_cases s.indexAddress n.val s _ with ⟨h', e⟩ | ⟨h', h'', e⟩
    · rw [e] at h; cases h
      refine .inr (.inr (.inr (.inr (.inr ⟨rfl, fun a ha => ?_, by simp⟩))))
      simp [HandlerOutOfBounds, indexAddress] at *; omega
    · rw [e] at h; cases h
      exact .inl ⟨_, ⟨h', by simp [indexAddress] at *; omega, rfl⟩, rfl⟩
  | skp x =>
    simp only [exec, execSkp] at h
    rcases withKey_cases (s.reg x) s _ with ⟨h', e⟩ | ⟨h', e⟩ <;> rw [e] at h <;> cases h
    · simp [HandlerOutOfBounds]; omega
    · exact .inl ⟨_, ⟨h', rfl⟩, rfl⟩
  | sknp x =>
    simp only [exec, execSknp] at h
    rcases withKey_cases (s.reg x) s _ with ⟨h', e⟩ | ⟨h', e⟩ <;> rw [e] at h <;> cases h
    · simp [HandlerOutOfBounds]; omega
    · exact .inl ⟨_, ⟨h', rfl⟩, rfl⟩
  | ldVxK x => simp only [exec, execLdVxK] at h; split at h <;> cases h <;> simp [HandlerOutOfBounds]
  | ldSTVx x => 
    by_cases hs : s.params.hasSoundTimer
    · simp [exec, execLdSTVx, hs] at h; subst h; simp [HandlerOutOfBounds]
    · simp [exec, execLdSTVx, hs]
  | ldB x => 
    simp only [exec, execLdB] at h
    rcases storeBytes_cases s.indexAddress (bcdDigits (s.reg x)) s _ (by simp [bcdDigits]) with ⟨h', m, hm, e⟩ | ⟨h', e⟩ <;> rw [e] at h <;> cases h
    · simp [HandlerOutOfBounds, indexAddress, bcdDigits] at *; omega
    · exact .inl ⟨_, ⟨by simp [indexAddress, bcdDigits] at *; omega, rfl⟩, rfl⟩
  | storeRegs x =>
    simp only [exec, execStoreRegs] at h
    rcases storeBytes_cases s.indexAddress (s.regsUpTo x) s _ (by simp) with ⟨h', m, hm, e⟩ | ⟨h', e⟩ <;> rw [e] at h <;> cases h
    · simp [HandlerOutOfBounds, indexAddress] at *; omega
    · exact .inl ⟨_, ⟨by simp [indexAddress] at *; omega, rfl⟩, by simp; rfl⟩
  | loadRegs x => 
    simp only [exec, execLoadRegs] at h
    rcases loadBytes_cases s.indexAddress (x.val+1) s _ with ⟨h', e⟩ | ⟨h', h'', e⟩ <;> rw [e] at h <;> cases h
    · simp [HandlerOutOfBounds, indexAddress] at *; omega
    · exact .inl ⟨_, ⟨by simp [indexAddress] at *; omega, rfl⟩, rfl⟩
  | _ => cases h; simp [HandlerOutOfBounds]

end Sys2Proof.Machine
end

