-- ==== Sys2Proof/Laws/Run.lean ====
section
/-! SUPPORT. What an operation of the host, an operation of a run and a run can do, said once. -/

namespace Sys2Proof.Machine

/-! ## One operation of the host -/

/-- An operation that can stand in a run and is not a step: it goes on, by `SET_KEY`, `TIMER_TICK`,
`READ_FB` or `CLEAR_DIRTY`, with the session's flag as it was, or it is a `SET_KEY` refused. -/
theorem act_hostOp_cases (op : RunOp) (u : Session) (h : op ≠ .step) :
    (∃ k b, ∃ hk : k < 16, op = .setKey k b ∧
      u.act op.hostOp = .next ⟨u.core.setKeyLatch ⟨k, hk⟩ b, u.stepped⟩) ∨
    (∃ k b, 16 ≤ k ∧ op = .setKey k b ∧ u.act op.hostOp = .refused (.keyIndexOutOfRange k)) ∨
    (op = .timerTick ∧ u.act op.hostOp = .next ⟨u.core.timerTick, u.stepped⟩) ∨
    (op = .readFb ∧ u.act op.hostOp = .next u) ∨
    (op = .clearDirty ∧ u.act op.hostOp = .next ⟨u.core.clearDirty, u.stepped⟩) := by
  cases op with
  | step => exact absurd rfl h
  | setKey k b =>
    by_cases hk : k < 16
    · exact .inl ⟨k, b, hk, rfl, by simp [RunOp.hostOp, Session.act, State.setKey, hk, Session.wrap]⟩
    · exact .inr (.inl ⟨k, b, by omega, rfl,
        by simp [RunOp.hostOp, Session.act, State.setKey, hk, Session.wrap]⟩)
  | timerTick => exact .inr (.inr (.inl ⟨rfl, rfl⟩))
  | readFb => exact .inr (.inr (.inr (.inl ⟨rfl, rfl⟩)))
  | clearDirty => exact .inr (.inr (.inr (.inr ⟨rfl, rfl⟩)))

theorem act_step (u : Session) (t : State) (h : step u.core = .next t) :
    u.act .step = .next ⟨t, true⟩ := by simp [Session.act, h, Session.wrap]

@[simp] theorem duringRun_hostOp (op : RunOp) : op.hostOp.duringRun = true := by cases op <;> rfl

/-! ## One operation of a run -/

theorem actOn_step (u : Session) (t : State) (h : step u.core = .next t) :
    Run.actOn u .step = Run.afterStep t := by simp [Run.actOn, RunOp.hostOp, act_step u t h]

theorem afterStep_ok (t : State) (h : t.outcome = .ok) : Run.afterStep t = .going ⟨t, true⟩ := by
  simp [Run.afterStep, h]

theorem afterStep_halt (t : State) (h : t.outcome = .haltRequested) : Run.afterStep t = .halted t := by
  simp [Run.afterStep, h]

theorem afterStep_error (t : State) (e : ErrorKind) (h : t.outcome = .error e) :
    Run.afterStep t = .faulted e t := by simp [Run.afterStep, h]

@[simp] theorem afterStep_core (t : State) : (Run.afterStep t).core = t := by
  rcases h : t.outcome with _ | _ | e <;> simp [Run.afterStep, h, Run.core]

/-- An operation other than a step that is not refused: the run goes on where the host's operation
leads. -/
theorem actOn_next (u v : Session) (op : RunOp) (h : op ≠ .step) (e : u.act op.hostOp = .next v) :
    Run.actOn u op = .going v := by
  cases op <;> first | exact absurd rfl h | simp [Run.actOn, e]

/-- An operation refused changes nothing. -/
theorem actOn_refused (u : Session) (op : RunOp) (r : Refusal) (e : u.act op.hostOp = .refused r) :
    Run.actOn u op = .going u := by simp [Run.actOn, e]

/-- An operation other than a step never ends a run. -/
theorem actOn_host (u : Session) (op : RunOp) (h : op ≠ .step) :
    ∃ v, Run.actOn u op = .going v ∧ v.stepped = u.stepped ∧
      (u.act op.hostOp = .next v ∨ (v = u ∧ ∃ r, u.act op.hostOp = .refused r)) := by
  rcases act_hostOp_cases op u h with ⟨_, _, _, -, e⟩ | ⟨_, _, -, -, e⟩ | ⟨-, e⟩ | ⟨-, e⟩ | ⟨-, e⟩
  · exact ⟨_, actOn_next _ _ _ h e, rfl, .inl e⟩
  · exact ⟨u, actOn_refused _ _ _ e, rfl, .inr ⟨rfl, _, e⟩⟩
  all_goals exact ⟨_, actOn_next _ _ _ h e, rfl, .inl e⟩

/-! ## Runs -/

@[simp] theorem perform_nil (r : Run) : Run.perform [] r = r := rfl

@[simp] theorem perform_going (op : RunOp) (ops : List RunOp) (u : Session) :
    Run.perform (op :: ops) (.going u) = Run.perform ops (Run.actOn u op) := rfl

/-- A run that has ended stays as it is. -/
@[simp] theorem perform_halted (ops : List RunOp) (s : State) :
    Run.perform ops (.halted s) = .halted s := by cases ops <;> rfl

@[simp] theorem perform_faulted (ops : List RunOp) (e : ErrorKind) (s : State) :
    Run.perform ops (.faulted e s) = .faulted e s := by cases ops <;> rfl

theorem perform_append (xs ys : List RunOp) (r : Run) :
    Run.perform (xs ++ ys) r = Run.perform ys (Run.perform xs r) := by
  induction xs generalizing r with
  | nil => rfl
  | cons op xs ih => cases r <;> simp [ih]

end Sys2Proof.Machine
end

