-- ==== Sys2Proof/Tests/Slice0.lean ====
section
/-! SUPPORT. The model's own tests. The words are written out bit by bit from the opcode map and the
formats of `30_encoding.md` (R47, R49, R50); the expected results are the vectors of
`95_test_vectors.md` (T1 to T10, S1 to S7), never the model's own answers. Then, for each statement
with hypotheses, a witness that meets them. -/

namespace Sys2Proof.Tests

open Sys2Proof Sys2Proof.Machine

/-! ## Well-formedness -/

theorem test_smoke_sound_timer_instruction_is_refused_without_the_timer :
    (Instr.ldSTVx 0x1).wellFormed false = false ∧ (Instr.ldSTVx 0xF).wellFormed false = false := by
  decide

theorem test_wellFormed_with_the_timer : (Instr.ldSTVx 0x1).wellFormed true = true := by decide

/-! ## Decoding: every constructor, from a word written out bit by bit -/

theorem test_decode_class0 :
    decode false 0b0000000011100000 = .instr .cls ∧
    decode false 0b0000000011101110 = .instr .ret ∧
    decode false 0b0000000011111101 = .instr .exit ∧
    decode false 0b0000000011111110 = .instr .low ∧
    decode false 0b0000000011111111 = .instr .high := by decide

theorem test_decode_control :
    decode false 0b0001101010111100 = .instr (.jp 0xABC) ∧
    decode false 0b0010001000001010 = .instr (.call 0x20A) ∧
    decode false 0b0011101001000010 = .instr (.seImm 0xA 0x42) ∧
    decode false 0b0100101001000010 = .instr (.sneImm 0xA 0x42) ∧
    decode false 0b0101101010110000 = .instr (.seReg 0xA 0xB) ∧
    decode false 0b1001101010110000 = .instr (.sneReg 0xA 0xB) ∧
    decode false 0b1011001100000000 = .instr (.jpV0 0x300) := by decide

theorem test_decode_alu_immediate :
    decode false 0b0110111101111011 = .instr (.ldImm 0xF 0x7B) ∧
    decode false 0b0111001111111011 = .instr (.addImm 0x3 0xFB) ∧
    decode false 0b1100000100001111 = .instr (.rnd 0x1 0x0F) := by decide

theorem test_decode_class8 :
    decode false 0b1000000100100000 = .instr (.ldReg 0x1 0x2) ∧
    decode false 0b1000000100100001 = .instr (.orReg 0x1 0x2) ∧
    decode false 0b1000000100100010 = .instr (.andReg 0x1 0x2) ∧
    decode false 0b1000000100100011 = .instr (.xorReg 0x1 0x2) ∧
    decode false 0b1000101010110100 = .instr (.addReg 0xA 0xB) ∧
    decode false 0b1000000100100101 = .instr (.subReg 0x1 0x2) ∧
    decode false 0b1000001110110110 = .instr (.shr 0x3) ∧
    decode false 0b1000000100100111 = .instr (.subnReg 0x1 0x2) ∧
    decode false 0b1000001110111110 = .instr (.shl 0x3) := by decide

theorem test_decode_index_memory :
    decode false 0b1010000100100011 = .instr (.ldI 0x123) ∧
    decode false 0b1111001100011110 = .instr (.addI 0x3) ∧
    decode false 0b1111001100101001 = .instr (.ldF 0x3) ∧
    decode false 0b1111000000110011 = .instr (.ldB 0x0) ∧
    decode false 0b1111001001010101 = .instr (.storeRegs 0x2) ∧
    decode false 0b1111001001100101 = .instr (.loadRegs 0x2) := by decide

theorem test_decode_display : decode false 0b1101011110100011 = .instr (.drw 0x7 0xA 0x3) := by decide

theorem test_decode_keypad_timer :
    decode false 0b1110001010011110 = .instr (.skp 0x2) ∧
    decode false 0b1110001010100001 = .instr (.sknp 0x2) ∧
    decode false 0b1111010000000111 = .instr (.ldVxDT 0x4) ∧
    decode false 0b1111001100001010 = .instr (.ldVxK 0x3) ∧
    decode false 0b1111010000010101 = .instr (.ldDTVx 0x4) ∧
    decode true 0b1111000100011000 = .instr (.ldSTVx 0x1) ∧
    decode false 0b1111000100011000 = .unknown 0xF118 := by decide

/-- The ignored bits of R50, at values that are not 0 (T1). -/
theorem test_decode_ignored_bits :
    decode false 0x03E0 = .instr .cls ∧ decode false 0x0FEE = .instr .ret ∧
    decode false 0x07FD = .instr .exit ∧ decode false 0x0AFF = .instr .high ∧
    decode false 0x5127 = .instr (.seReg 0x1 0x2) ∧ decode false 0x9AB5 = .instr (.sneReg 0xA 0xB) := by
  decide

/-- Unknown words, Super-CHIP ones among them (T1). -/
theorem test_decode_unknown :
    ([0x0000, 0x00E1, 0x8128, 0x812F, 0xE19F, 0xF130, 0x00C5, 0x00FB, 0xF175, 0xFFFF].all
      fun w : Word => decode false w = .unknown w) = true := by decide

theorem test_encode_words_of_the_table :
    encode (.addReg 0xA 0xB) = 0x8AB4 ∧ encode (.drw 0x7 0xA 0x3) = 0xD7A3 ∧
    encode (.jp 0xABC) = 0x1ABC ∧ encode (.ldSTVx 0x1) = 0xF118 := by decide

/-- `mem[0x0200] = 0x12`, `mem[0x0201] = 0x34` is the word 0x1234 (T1). -/
theorem test_byte_order : composeWord 0x12 0x34 = 0x1234 ∧ wordBytes 0x1234 = [0x12, 0x34] := by decide

theorem test_decodeTableWord :
    decodeTableWord 16 0x8AB4 = some (.addReg 0xA 0xB) ∧ decodeTableWord 16 0xF118 = some (.ldSTVx 0x1) ∧
    decodeTableWord 16 0xF130 = none := by decide

/-- No two rows of the opcode map overlap (`30_encoding.md` R49). -/
theorem test_opcode_map_rows_do_not_overlap :
    opcodeMap.Pairwise (fun a b => a.value &&& b.mask ≠ b.value &&& a.mask) ∧ opcodeMap.length = 37 := by
  decide

/-! ## One step each -/

/-- The reset state with a word at 0x200. -/
def start (w : Word) : State := State.reset.withFetchWord 16 w.toNat

/-- The state after one step; a fault or a refusal would show as a missing state. -/
def after (s : State) : Option State :=
  match step s with
  | .next t => some t
  | .fault _ | .refused _ => none

/-- The bytes given at `a`, by plain writes. -/
def poke (a : Nat) (bs : List Byte) (s : State) : State :=
  s.setMem ((Memory.writeBytes? a bs s.mem).getD [])

/-- The step answers a next state with outcome `Ok` of which the check holds. -/
def okWith (s : State) (check : State → Bool) : Bool :=
  match after s with
  | some t => t.outcome == .ok && check t
  | none => false

/-- The step reports the error and changes nothing. -/
def failsUnchanged (s : State) (e : ErrorKind) : Bool := after s == some (s.report (.error e))

/-- With the sound timer and the policy given. -/
def withParams (st : Bool) (p : UnknownOpcodePolicy) (s : State) : State := { s with params := ⟨st, p⟩ }

theorem test_last_fetchable_address :
    okWith ((poke 0xFFE [0x60, 0x11] State.reset).setPc 0x0FFE)
      (fun t => t.reg 0 == 0x11 && t.pc == 0x1000) = true := by decide

theorem test_fetch_outside_memory :
    failsUnchanged (State.reset.setPc 0x0FFF) (.outOfBounds 0x0FFF) = true ∧
    failsUnchanged (State.reset.setPc 0x1000) (.outOfBounds 0x1000) = true := by decide

theorem test_odd_pc :
    okWith ((poke 0x201 [0x6A, 0x55] State.reset).setPc 0x0201)
      (fun t => t.reg 0xA == 0x55 && t.pc == 0x0203) = true := by decide

theorem test_unknown_abort : failsUnchanged (start 0x8128) (.unknownOpcode 0x8128) = true := by decide

theorem test_unknown_skip :
    after (withParams false .skip (start 0xFFFF)) =
      some (((withParams false .skip (start 0xFFFF)).setPc 0x0202).report
        (.error (.unknownOpcode 0xFFFF))) := by decide

theorem test_jp : okWith (start 0x1FFF) (fun t => t.pc == 0x0FFF) = true := by decide

theorem test_jpV0_is_not_masked :
    okWith ((start 0xBFFF).setReg 0 0xFF) (fun t => t.pc == 0x10FE) = true := by decide

theorem test_jpV0_offset_is_V0 :
    okWith ((start 0xB300).setReg 3 0x77) (fun t => t.pc == 0x0300) = true := by decide

/-- `sp` as given. -/
def withSp (k : Fin 17) (s : State) : State := { s with sp := k }

theorem test_call_sixteenth :
    okWith (withSp 15 (start 0x2345))
      (fun t => t.stack[15] == 0x0200 && t.sp == 16 && t.pc == 0x0345) = true := by decide

theorem test_call_full :
    failsUnchanged (withSp 16 (start 0x2345)) .stackOverflow = true := by decide

theorem test_ret :
    okWith { withSp 16 (start 0x00EE) with stack := (Vector.replicate 16 0).set 15 0x0FFE }
      (fun t => t.sp == 15 && t.pc == 0x1000 && t.stack[15] == 0x0FFE) = true := by decide

theorem test_ret_empty : failsUnchanged (start 0x00EE) .stackUnderflow = true := by decide

theorem test_seImm :
    okWith ((start 0x3A42).setReg 0xA 0x42) (fun t => t.pc == 0x0204) = true ∧
    okWith ((start 0x3A42).setReg 0xA 0x43) (fun t => t.pc == 0x0202) = true := by decide

theorem test_sneImm :
    okWith ((start 0x4A42).setReg 0xA 0x42) (fun t => t.pc == 0x0202) = true ∧
    okWith ((start 0x4A42).setReg 0xA 0x43) (fun t => t.pc == 0x0204) = true := by decide

theorem test_seReg :
    okWith (((start 0x5AB0).setReg 0xA 9).setReg 0xB 9) (fun t => t.pc == 0x0204) = true ∧
    okWith (((start 0x5AB0).setReg 0xA 9).setReg 0xB 8) (fun t => t.pc == 0x0202) = true := by decide

theorem test_sneReg :
    okWith (((start 0x9AB0).setReg 0xA 9).setReg 0xB 9) (fun t => t.pc == 0x0202) = true ∧
    okWith (((start 0x9AB0).setReg 0xA 9).setReg 0xB 8) (fun t => t.pc == 0x0204) = true := by decide

theorem test_ldImm : okWith (start 0x6F7B) (fun t => t.reg 0xF == 0x7B && t.pc == 0x0202) = true := by
  decide

theorem test_addImm_wraps_without_a_flag :
    okWith ((start 0x7001).setReg 0 0xFF) (fun t => t.reg 0 == 0x00 && t.reg 0xF == 0x00) = true := by
  decide

theorem test_ldReg : okWith (((start 0x8120).setReg 1 1).setReg 2 0x77) (fun t => t.reg 1 == 0x77) = true := by
  decide

theorem test_orReg_leaves_VF :
    okWith ((((start 0x8121).setReg 1 0xF0).setReg 2 0x0F).setReg 0xF 0x55)
      (fun t => t.reg 1 == 0xFF && t.reg 0xF == 0x55) = true := by decide

theorem test_andReg_leaves_VF :
    okWith ((((start 0x8122).setReg 1 0xF3).setReg 2 0x3F).setReg 0xF 0x55)
      (fun t => t.reg 1 == 0x33 && t.reg 0xF == 0x55) = true := by decide

theorem test_xorReg_leaves_VF :
    okWith ((((start 0x8123).setReg 1 0xFF).setReg 2 0x0F).setReg 0xF 0x55)
      (fun t => t.reg 1 == 0xF0 && t.reg 0xF == 0x55) = true := by decide

theorem test_addReg_no_carry_at_255 :
    okWith (((start 0x8AB4).setReg 0xA 0xFE).setReg 0xB 0x01)
      (fun t => t.reg 0xA == 0xFF && t.reg 0xF == 0) = true := by decide

theorem test_addReg_into_VF_keeps_the_flag :
    okWith (((start 0x8FA4).setReg 0xF 0xF0).setReg 0xA 0x20) (fun t => t.reg 0xF == 1) = true := by
  decide

theorem test_subReg_equality :
    okWith ((((start 0x8125).setReg 1 7).setReg 2 7).setReg 0xF 1)
      (fun t => t.reg 1 == 0 && t.reg 0xF == 0) = true := by decide

theorem test_subReg_below :
    okWith (((start 0x8125).setReg 1 5).setReg 2 7)
      (fun t => t.reg 1 == 0xFE && t.reg 0xF == 0) = true := by decide

theorem test_subnReg_equality :
    okWith (((start 0x8127).setReg 1 7).setReg 2 7)
      (fun t => t.reg 1 == 0 && t.reg 0xF == 1) = true := by decide

theorem test_subnReg_below :
    okWith (((start 0x8127).setReg 1 7).setReg 2 5)
      (fun t => t.reg 1 == 0xFE && t.reg 0xF == 0) = true := by decide

theorem test_shr_ignores_y :
    okWith ((start 0x83B6).setReg 3 0xFF)
      (fun t => t.reg 3 == 0x7F && t.reg 0xF == 1 && t.reg 0xB == 0) = true := by decide

theorem test_shr_of_VF : okWith ((start 0x8F06).setReg 0xF 2) (fun t => t.reg 0xF == 0) = true := by decide

theorem test_shl_ignores_y :
    okWith (((start 0x83BE).setReg 3 0xC0).setReg 0xB 1)
      (fun t => t.reg 3 == 0x80 && t.reg 0xF == 1 && t.reg 0xB == 1) = true := by decide

theorem test_shl_of_VF : okWith ((start 0x8F0E).setReg 0xF 0x80) (fun t => t.reg 0xF == 1) = true := by
  decide

/-- The random byte is free; the mask is shown on the bytes of T5. -/
theorem test_rnd_mask :
    loadMasked 1 0xB7 0x0F State.reset = .next (((State.reset.setReg 1 0x07).setPc 0x0202).report .ok) ∧
    loadMasked 0xF 0xAA 0xF0 State.reset = .next (((State.reset.setReg 0xF 0xA0).setPc 0x0202).report .ok) :=
  ⟨rfl, rfl⟩

theorem test_ldI : okWith (start 0xAFFF) (fun t => t.i == 0x0FFF) = true := by decide

theorem test_addI_leaves_twelve_bits :
    okWith (((start 0xF31E).setIndex 0x0FFB).setReg 3 0xFF) (fun t => t.i == 0x10FA && t.reg 0xF == 0) = true := by
  decide

theorem test_addI_wraps :
    okWith (((start 0xF31E).setIndex 0xFFFF).setReg 3 2) (fun t => t.i == 0x0001) = true := by decide

theorem test_ldF_is_not_masked : okWith ((start 0xF329).setReg 3 0xFF) (fun t => t.i == 0x04FB) = true := by
  decide

theorem test_ldB_last_index :
    okWith (((start 0xF033).setIndex 0x0FFD).setReg 0 0xFF)
      (fun t => t.readByte 0xFFD == 2 && t.readByte 0xFFE == 5 && t.readByte 0xFFF == 5 &&
        t.i == 0x0FFD) = true := by decide

theorem test_ldB_outside :
    failsUnchanged (((start 0xF033).setIndex 0x0FFE).setReg 0 7) (.outOfBounds 0x1000) = true := by decide

theorem test_storeRegs :
    okWith (((((start 0xF255).setReg 0 0x11).setReg 1 0x22).setReg 2 0x33).setReg 3 0x44 |>.setIndex 0x0400)
      (fun t => t.readByte 0x400 == 0x11 && t.readByte 0x401 == 0x22 && t.readByte 0x402 == 0x33 &&
        t.readByte 0x403 == 0 && t.i == 0x0400) = true := by decide

theorem test_storeRegs_outside :
    failsUnchanged ((((start 0xF155).setReg 0 0xAA).setReg 1 0xBB).setIndex 0x0FFF)
      (.outOfBounds 0x1000) = true := by decide

theorem test_loadRegs :
    okWith (poke 0x400 [1, 2, 3, 4] (((start 0xF265).setReg 3 0x99).setIndex 0x0400))
      (fun t => t.reg 0 == 1 && t.reg 1 == 2 && t.reg 2 == 3 && t.reg 3 == 0x99 && t.i == 0x0400) = true := by
  decide

theorem test_loadRegs_outside :
    failsUnchanged ((start 0xF165).setIndex 0x0FFF) (.outOfBounds 0x1000) = true := by decide

/-- The framebuffer in which the pixels listed as (column, row) are set. -/
def lit (l : List (Fin 64 × Fin 32)) : Framebuffer :=
  l.foldl (fun (fb : Framebuffer) p => fb.set p.2.val (fb[p.2].set p.1.val true p.1.isLt) p.2.isLt)
    blankScreen

theorem test_cls_sets_dirty :
    okWith ((start 0x00E0).setFb (lit [(0, 0), (63, 31)]))
      (fun t => !t.pixel 0 0 && !t.pixel 63 31 && t.dirty && t.pc == 0x0202) = true := by decide

/-- S7. -/
theorem test_drw_wraps_at_the_right_edge :
    okWith (poke 0x20C [0xFF] (((start 0xD011).setReg 0 0x3C).setIndex 0x020C))
      (fun t => t.pixel 60 0 && t.pixel 63 0 && t.pixel 0 0 && t.pixel 3 0 && !t.pixel 4 0 &&
        !t.pixel 59 0 && !t.pixel 60 1 &&
        t.reg 0xF == 0 && t.dirty) = true := by decide

theorem test_drw_collision :
    okWith ((poke 0x20C [0xFF] (((start 0xD011).setReg 0 0x3C).setIndex 0x020C)).setFb (lit [(62, 0)]))
      (fun t => t.pixel 61 0 && !t.pixel 62 0 && t.pixel 3 0 &&
        t.reg 0xF == 1) = true := by decide

theorem test_skp :
    okWith (((start 0xE29E).setReg 2 0xF).setKeyLatch 15 true) (fun t => t.pc == 0x0204) = true ∧
    failsUnchanged ((start 0xE29E).setReg 2 0x10) (.outOfBounds 0x10) = true := by decide

theorem test_sknp :
    okWith (((start 0xE2A1).setReg 2 5).setKeyLatch 5 true) (fun t => t.pc == 0x0202) = true ∧
    failsUnchanged ((start 0xE2A1).setReg 2 0xFF) (.outOfBounds 0xFF) = true := by decide

theorem test_ldVxK_waits : after (start 0xF30A) = some (start 0xF30A) := by decide

theorem test_ldVxK_lowest :
    okWith ((((start 0xF30A).setKeyLatch 15 true).setKeyLatch 9 true).setKeyLatch 12 true)
      (fun t => t.reg 3 == 9 && t.pc == 0x0202) = true := by decide

theorem test_ldVxDT :
    okWith ((start 0xF407).setDelay 0x2A) (fun t => t.reg 4 == 0x2A && t.dt == 0x2A) = true := by decide

theorem test_ldDTVx : okWith ((start 0xF415).setReg 4 0x3C) (fun t => t.dt == 0x3C) = true := by decide

theorem test_ldSTVx :
    okWith (withParams true .abort ((start 0xF118).setReg 1 8)) (fun t => t.st == 8 && t.pc == 0x0202) = true ∧
    failsUnchanged ((start 0xF118).setReg 1 8) (.unknownOpcode 0xF118) = true := by decide

theorem test_low_and_high :
    okWith ((start 0x00FE).setMode .extended) (fun t => t.mode == .standard && !t.dirty) = true ∧
    okWith (start 0x00FF) (fun t => t.mode == .extended && t.pc == 0x0202) = true := by decide

theorem test_exit : after (start 0x00FD) = some ((start 0x00FD).report .haltRequested) := by decide

/-! ## Host operations (T9) -/

theorem test_timerTick :
    (State.reset.setDelay 3).timerTick.dt = 2 ∧ (State.reset.setDelay 0).timerTick.dt = 0 ∧
    (withParams true .abort (State.reset.setSound 1)).timerTick.st = 0 := by decide

theorem test_readFb :
    (State.reset.setFb (lit [(3, 2)])).readFb.pixels[131]? = some true ∧
    (State.reset.setFb (lit [(3, 2)])).readFb.pixels[130]? = some false := by decide +kernel

theorem test_font_at_reset :
    State.reset.readByte 0 = 0xF0 ∧ State.reset.readByte 5 = 0x20 ∧ State.reset.readByte 0x4F = 0x80 ∧
    State.reset.readByte 0x50 = 0 := by decide

theorem test_outcome_codes :
    [StepOutcome.ok, .haltRequested, .error (.unknownOpcode 0), .error .stackOverflow,
      .error .stackUnderflow, .error (.outOfBounds 0), .error (.romTooLarge 0)].map outcomeCode =
      [0, 1, 2, 3, 4, 5, 6] ∧ outcomeInfo (.error (.outOfBounds 0x1000)) = some 0x1000 := by decide

/-! ## Witnesses: for each statement with hypotheses, states and operands that meet them

The theorems are named after the statements; the values are at the edges of the clauses' ranges. -/

theorem witness_reset_Inv : State.reset.Inv :=
  ⟨by decide, by unfold State.pcBounded; decide, by unfold State.liveSlotsBounded; decide, fun _ => rfl⟩

/-- The machine is about to run the instruction, shown by evaluation. -/
theorem runs_of (s : State) (i : Instr) (hf : decide (s.pc.toNat + 1 < 4096) = true)
    (hd : decode s.params.hasSoundTimer s.fetchedWord = .instr i) : Runs s i :=
  ⟨(of_decide_eq_true hf : s.pc.toNat + 1 < 4096), hd⟩

theorem witness_DecodeOfEncodeIsTheInstruction :
    (Instr.ldSTVx 0xF).wellFormed true = true ∧ Instr.cls.wellFormed false = true := by decide

theorem witness_EncodeOfDecodeClearsIgnoredBits :
    decode false 0x0FEE = .instr .ret ∧ decode true 0x83B6 = .instr (.shr 0x3) := by decide

theorem witness_OpcodeMapSelectsByMaskAndMatch :
    (⟨"LD_ST_Vx", 0xF0FF, 0xF018⟩ ∈ opcodeMap ∧ ("LD_ST_Vx" = "LD_ST_Vx" → true = true)) ∧
    (⟨"CLS", 0xF0FF, 0x00E0⟩ ∈ opcodeMap ∧ ("CLS" = "LD_ST_Vx" → false = true)) := by decide

theorem witness_UnknownWordsAreExactlyThoseListed :
    listedUnknown false 0xF118 = true ∧ listedUnknown true 0xF118 = false ∧
    listedUnknown false 0x8128 = true ∧ listedUnknown false 0x00E0 = false := by decide

theorem witness_StepRunsTheDecodedInstruction :
    ¬ (State.reset.setPc 0x0FFF).canFetch ∧ Runs ((start 0x1FFF)) (.jp 0xFFF) ∧
    Runs ((poke 0xFFE [0x60, 0x11] State.reset).setPc 0x0FFE) (.ldImm 0x0 0x11) :=
  ⟨by unfold State.canFetch; decide, runs_of _ _ (by decide) (by decide), runs_of _ _ (by decide) (by decide)⟩

theorem witness_UnknownOpcodeFollowsThePolicy :
    (start 0xFFFF).canFetch ∧
    decode (start 0xFFFF).params.hasSoundTimer (start 0xFFFF).fetchedWord =
      .unknown (start 0xFFFF).fetchedWord ∧
    (start 0xFFFF).params.unknownOpcodePolicy = .abort ∧
    (withParams false .skip (start 0xFFFF)).canFetch ∧
    decode false (withParams false .skip (start 0xFFFF)).fetchedWord =
      .unknown (withParams false .skip (start 0xFFFF)).fetchedWord ∧
    (withParams false .skip (start 0xFFFF)).params.unknownOpcodePolicy = .skip := by
  unfold State.canFetch; decide

theorem witness_StepKeepsInvariant :
    ∃ t, State.reset.Inv ∧ step State.reset = .next t := ⟨_, witness_reset_Inv, rfl⟩

theorem witness_ErrorLeavesNoTrace :
    (∃ t, step (start 0x00EE) = .next t ∧ t.outcome = .error .stackUnderflow) ∧
    (∃ t, step (withParams false .skip (start 0x0000)) = .next t ∧
      t.outcome = .error (.unknownOpcode 0x0000)) := ⟨⟨_, rfl, rfl⟩, ⟨_, rfl, rfl⟩⟩

theorem witness_OutOfBoundsExactlyAsListed_fetch :
    ∃ t, step (State.reset.setPc 0x0FFF) = .next t ∧ t.outcome = .error (.outOfBounds 0x0FFF) ∧
      ¬ (State.reset.setPc 0x0FFF).canFetch :=
  ⟨_, rfl, rfl, by unfold State.canFetch; decide⟩

theorem witness_OutOfBoundsExactlyAsListed_handlers :
    Runs ((start 0xD01F).setIndex 0x0FF2) (.drw 0x0 0x1 0xF) ∧
    HandlerOutOfBounds ((start 0xD01F).setIndex 0x0FF2) 0x1000 (.drw 0x0 0x1 0xF) ∧
    Runs ((start 0xF033).setIndex 0x0FFE) (.ldB 0x0) ∧
    HandlerOutOfBounds ((start 0xF033).setIndex 0x0FFE) 0x1000 (.ldB 0x0) ∧
    Runs ((start 0xF155).setIndex 0x0FFF) (.storeRegs 0x1) ∧
    HandlerOutOfBounds ((start 0xF155).setIndex 0x0FFF) 0x1000 (.storeRegs 0x1) ∧
    Runs ((start 0xF165).setIndex 0x0FFF) (.loadRegs 0x1) ∧
    HandlerOutOfBounds ((start 0xF165).setIndex 0x0FFF) 0x1000 (.loadRegs 0x1) ∧
    Runs ((start 0xE29E).setReg 2 0x10) (.skp 0x2) ∧
    HandlerOutOfBounds ((start 0xE29E).setReg 2 0x10) 0x10 (.skp 0x2) ∧
    Runs ((start 0xE2A1).setReg 2 0xFF) (.sknp 0x2) ∧
    HandlerOutOfBounds ((start 0xE2A1).setReg 2 0xFF) 0xFF (.sknp 0x2) := by
  refine ⟨runs_of _ _ (by decide) (by decide), ?_, runs_of _ _ (by decide) (by decide), ?_,
    runs_of _ _ (by decide) (by decide), ?_, runs_of _ _ (by decide) (by decide), ?_,
    runs_of _ _ (by decide) (by decide), ?_, runs_of _ _ (by decide) (by decide), ?_⟩ <;>
  · unfold HandlerOutOfBounds; decide

theorem witness_HaltRequestedByExitAlone :
    ∃ t, step (start 0x00FD) = .next t ∧ t.outcome = .haltRequested ∧ Runs (start 0x00FD) .exit :=
  ⟨_, rfl, rfl, runs_of _ _ (by decide) (by decide)⟩

theorem witness_StepReadsNoOutputOnlyState : ∃ t, step (start 0x6F7B) = .next t ∧ t.outcome = .ok :=
  ⟨_, rfl, rfl⟩

/-- Each clause of the statement about writers has a step that does write the piece. -/
theorem witness_EachPieceWrittenByItsWritersAlone :
    okWith (start 0xA123) (fun t => t.i != (start 0xA123).i) = true ∧
    okWith (start 0x220A) (fun t => t.stack != (start 0x220A).stack && t.sp != (start 0x220A).sp) = true ∧
    okWith ((start 0xF415).setReg 4 1) (fun t => t.dt != (start 0xF415).dt) = true ∧
    okWith (withParams true .abort ((start 0xF118).setReg 1 8)) (fun t => t.st != (start 0xF118).st) = true ∧
    okWith ((start 0x00E0).setFb (lit [(0, 0)])) (fun t => t.pixel 0 0 != true && t.dirty != false) = true ∧
    okWith (start 0x00FF) (fun t => t.mode != (start 0x00FF).mode) = true ∧
    okWith (((start 0xF055).setReg 0 0x12).setIndex 0x0400) (fun t => t.mem != (start 0xF055).mem) = true ∧
    okWith (start 0xC1FF) (fun t => t.draws != (start 0xC1FF).draws) = true := by decide

theorem witness_ErrorRepeatsWhateverTheHostDoes :
    ∃ t, (start 0x00EE).params.unknownOpcodePolicy = .abort ∧ step (start 0x00EE) = .next t ∧
      t.outcome = .error .stackUnderflow ∧
      ∀ op ∈ [HostOp.step, .setKey 5 true, .timerTick, .readFb, .clearDirty], op.duringRun = true :=
  ⟨_, rfl, rfl, rfl, by decide⟩

theorem witness_StoredWordIsFetchedByTheNextStep :
    Memory.wf ((State.reset.setPc 0x0FFC).setIndex 0x0FFE).mem ∧ 1 ≤ (0x1 : RegNum).val ∧
    ((State.reset.setPc 0x0FFC).setIndex 0x0FFE).i = ((State.reset.setPc 0x0FFC).setIndex 0x0FFE).pc + 2 ∧
    ((State.reset.setPc 0x0FFC).setIndex 0x0FFE).i.toNat + (0x1 : RegNum).val < 4096 := by decide

theorem witness_CallPushesItsOwnAddress :
    (withSp 15 State.reset).sp.val < 16 ∧ (withSp 0 State.reset).sp.val < 16 ∧
    (withSp 16 State.reset).sp.val = 16 := by decide

theorem witness_ReturnPopsAndAddsTwo :
    (withSp 1 State.reset).sp.val = (0 : Fin 16).val + 1 ∧
    (withSp 16 State.reset).sp.val = (15 : Fin 16).val + 1 ∧ (withSp 0 State.reset).sp.val = 0 := by decide

theorem witness_ReturnComesBackAfterTheCall :
    (withSp 15 State.reset).sp.val < 16 ∧ ∃ t, exec (.call 0x345) (withSp 15 State.reset) = .next t ∧
      ∃ u : State, u.pc = 0x0FFE ∧ u.sp = t.sp ∧ u.stack = t.stack :=
  ⟨by decide, _, rfl, (withSp 16 (State.reset.setPc 0x0FFE)) |>
    fun u => { u with stack := State.reset.stack.set 15 0x0200 }, rfl, rfl, rfl⟩

theorem witness_AddImmediateWrapsAround :
    (0x05 : Byte).toNat + (0xFB : Byte).toNat = 256 ∧ (0x01 : Byte).toNat + (0xFF : Byte).toNat = 256 := by
  decide

theorem witness_AddRegistersReportsCarry : (0x0 : RegNum) ≠ 0xF ∧ (0xE : RegNum) ≠ 0xF := by decide

theorem witness_SubtractionFlagsDifferOnEquality : (0x0 : RegNum) ≠ 0xF ∧ (0xE : RegNum) ≠ 0xF := by decide

theorem witness_ShiftsReportTheBitShiftedOut : (0x0 : RegNum) ≠ 0xF ∧ (0xE : RegNum) ≠ 0xF := by decide

theorem witness_BcdStoresThreeDigits :
    (Memory.wf (State.reset.setIndex 0x0FFD).mem ∧ (State.reset.setIndex 0x0FFD).i.toNat + 2 < 4096) ∧
    4096 ≤ (State.reset.setIndex 0x0FFE).i.toNat + 2 := by decide

theorem witness_RegisterDumpStoresUpToX :
    (Memory.wf (State.reset.setIndex 0x0FF0).mem ∧
      (State.reset.setIndex 0x0FF0).i.toNat + (0xF : RegNum).val < 4096) ∧
    4096 ≤ (State.reset.setIndex 0x0FF1).i.toNat + (0xF : RegNum).val := by decide

theorem witness_RegisterLoadFillsUpToX :
    (State.reset.setIndex 0x0FFF).i.toNat + (0x0 : RegNum).val < 4096 ∧
    4096 ≤ (State.reset.setIndex 0x0FFF).i.toNat + (0x1 : RegNum).val := by decide

theorem witness_LoadBringsBackWhatDumpStored :
    Memory.wf (State.reset.setIndex 0x0FF0).mem ∧
    (State.reset.setIndex 0x0FF0).i.toNat + (0xF : RegNum).val < 4096 ∧
    ∃ t, exec (.storeRegs 0xF) (State.reset.setIndex 0x0FF0) = .next t ∧
      ∃ u : State, u.mem = t.mem ∧ u.i = (State.reset.setIndex 0x0FF0).i :=
  ⟨by decide, by decide, _, rfl, _, rfl, rfl⟩

theorem witness_CanonicalMemoriesReadingAlikeAreEqual :
    Memory.wf [(0x0FFF, (0x01 : Byte))] ∧ Memory.wf (Memory.write 0x0FFF 0x01 []) ∧
    ∀ a, a < 4096 → Memory.read a [(0x0FFF, 0x01)] = Memory.read a (Memory.write 0x0FFF 0x01 []) :=
  ⟨by decide, by decide, fun _ _ => rfl⟩

theorem witness_DrawFlipsExactlyTheSpritePixels :
    ((0 : Fin 16).val = 0 ∨ (State.reset.setIndex 0xFFFF).i.toNat + (0 : Fin 16).val - 1 < 4096) ∧
    ((15 : Fin 16).val = 0 ∨ (State.reset.setIndex 0x0FF1).i.toNat + (15 : Fin 16).val - 1 < 4096) ∧
    ((1 : Fin 16).val ≠ 0 ∧ 4096 ≤ (State.reset.setIndex 0x1000).i.toNat + (1 : Fin 16).val - 1) := by decide

/-- A sprite pixel in the corner that wraps in both directions: byte 0xFF at the origin (60, 31). -/
theorem witness_SpriteHits :
    SpriteHits (poke 0x300 [0x00, 0xFF] (((State.reset.setIndex 0x0300).setReg 0 60).setReg 1 31)) 0 1 2 3 0 :=
  ⟨1, 7, by decide, by decide, by decide, by decide, by decide⟩

theorem witness_DrawingTwiceRestoresTheScreen :
    (0x0 : RegNum) ≠ 0xF ∧ (0xE : RegNum) ≠ 0xF ∧
    ((1 : Fin 16).val = 0 ∨ (State.reset.setIndex 0x0FFF).i.toNat + (1 : Fin 16).val - 1 < 4096) := by decide

theorem witness_KeySkipsTestTheLatch :
    ((State.reset.setReg 2 0x0F).reg 2).toNat = (15 : Fin 16).val ∧
    ((State.reset.setReg 2 0x00).reg 2).toNat = (0 : Fin 16).val ∧
    15 < ((State.reset.setReg 2 0x10).reg 2).toNat := by decide

theorem witness_WaitForKeyReportsTheLowest :
    ((State.reset.setKeyLatch 15 true).key[(15 : Fin 16)] = true ∧
      ∀ j : Fin 16, j < 15 → (State.reset.setKeyLatch 15 true).key[j] = false) ∧
    ((State.reset.setKeyLatch 0 true).key[(0 : Fin 16)] = true ∧
      ∀ j : Fin 16, j < 0 → (State.reset.setKeyLatch 0 true).key[j] = false) ∧
    ∀ k : Fin 16, State.reset.key[k] = false := by decide

theorem witness_WaitForKeyHoldsAcrossSteps :
    Runs (start 0xF30A) (.ldVxK 0x3) ∧ (∀ k : Fin 16, (start 0xF30A).key[k] = false) ∧
    (start 0xF30A).outcome = .ok := ⟨runs_of _ _ (by decide) (by decide), by decide, by decide⟩

theorem witness_SoundTimerOnlyWhereFitted :
    (withParams true .abort State.reset).params.hasSoundTimer = true ∧
    (start 0xFF18).params.hasSoundTimer = false ∧
    (start 0xFF18).params.unknownOpcodePolicy = .abort ∧ (start 0xFF18).canFetch ∧
    (start 0xFF18).fetchedWord = encode (.ldSTVx 0xF) := by unfold State.canFetch; decide

theorem witness_ResetRestoresEveryPiece : 0x4F < font.length ∧ 80 ≤ 0x50 := by decide

theorem witness_LoadRomCopiesOrFails :
    (Memory.wf State.reset.mem ∧ (List.replicate 3584 (0x60 : Byte)).length ≤ 3584) ∧
    3584 < (List.replicate 3585 (0x60 : Byte)).length := by
  simp only [List.length_replicate]; decide

theorem witness_FirstInstructionIsTheFirstTwoRomBytes :
    (List.replicate 3582 (0x60 : Byte)).length ≤ 3582 ∧ ([] : List Byte).length ≤ 3582 := by
  simp only [List.length_replicate]; decide

/-- Keys 15 and 16, on the two sides of the clauses' bounds. -/
theorem witness_SetKeyWritesOneLatch :
    (15 < 16 ∧ ∃ t, State.reset.setKey 15 true = .next t) ∧
    (15 < 16 ∧ State.reset.setKey 16 true = .refused (.keyIndexOutOfRange 16)) :=
  ⟨⟨by decide, _, rfl⟩, by decide, rfl⟩

/-! ## Runs (`60_exceptions.md` R130, program P1 of `95_test_vectors.md`) -/

/-- The bytes of program P1. -/
def p1 : List Byte := [0x60, 0x0A, 0x70, 0x05, 0x00, 0x00]

/-- P1 ends at its third step, faulted; what the host issues before it does not end the run, and what
comes after is no part of it. -/
theorem test_run_p1 :
    (match run State.reset (some p1)
        [.step, .setKey 5 true, .timerTick, .step, .readFb, .clearDirty, .step, .setKey 5 false, .step] with
      | .faulted e t => e == .unknownOpcode 0x0000 && t.reg 0 == 0x0F && t.pc == 0x0204 && t.key[5]
      | .going _ | .halted _ => false) = true ∧
    (match run State.reset (some p1) [.step, .step] with
      | .going u => u.core.reg 0 == 0x0F && u.stepped
      | .halted _ | .faulted _ _ => false) = true := by decide

/-- A run of an EXIT ends normally. -/
theorem test_run_exit :
    (match run State.reset (some [0x00, 0xFD]) [.timerTick, .step, .step] with
      | .halted t => t.pc == 0x0200
      | .going _ | .faulted _ _ => false) = true := by decide

theorem witness_HostOperationsKeepInvariant :
    (Session.start Params.default).core.Inv ∧
    (Session.run [.loadRom p1, .step, .setKey 5 true, .timerTick] (Session.start Params.default)).core.reg 0
      = 0x0A := ⟨witness_reset_Inv, by decide⟩

theorem witness_EveryHostOperationKeepsInvariant :
    State.reset.Inv ∧ (∃ v, Session.act (.loadRom p1) ⟨State.reset, false⟩ = .next v) ∧
    ∃ v, Session.act .step ⟨State.reset, false⟩ = .next v := ⟨witness_reset_Inv, ⟨_, rfl⟩, _, rfl⟩

/-- One step of each outcome, with an operation before it. -/
theorem witness_RunEndsAtTheFirstStepNotOk :
    (∃ v t, Run.perform [.timerTick] (.going ⟨start 0x6F7B, false⟩) = .going v ∧ step v.core = .next t ∧
      t.outcome = .ok) ∧
    (∃ v t, Run.perform [.timerTick] (.going ⟨start 0x00FD, false⟩) = .going v ∧ step v.core = .next t ∧
      t.outcome = .haltRequested) ∧
    (∃ v t, Run.perform [.timerTick] (.going ⟨start 0x00EE, false⟩) = .going v ∧ step v.core = .next t ∧
      t.outcome = .error .stackUnderflow) ∧ RunOp.setKey 15 true ≠ .step ∧ RunOp.setKey 16 true ≠ .step :=
  ⟨⟨_, _, rfl, rfl, rfl⟩, ⟨_, _, rfl, rfl, rfl⟩, ⟨_, _, rfl, rfl, rfl⟩, by decide, by decide⟩

theorem witness_FinalStateIsTheStateBeforeTheLastStep :
    (∃ t, Run.perform [.timerTick, .step, .step] (.going ⟨start 0x00FD, false⟩) = .halted t) ∧
    (∃ e t, Run.perform [.timerTick, .step, .step] (.going ⟨start 0x00EE, false⟩) = .faulted e t) ∧
    ∃ e t, Run.perform [.step] (.going ⟨withParams false .skip (start 0xFFFF), false⟩) = .faulted e t :=
  ⟨⟨_, rfl⟩, ⟨_, _, rfl⟩, _, _, rfl⟩

theorem witness_EndlessRunsNeverEnd :
    (Runs (start 0x1200) (.jp 0x200) ∧ addrWord 0x200 = (start 0x1200).pc) ∧
    Runs (start 0xF30A) (.ldVxK 0x3) ∧ (∀ k : Fin 16, (start 0xF30A).key[k] = false) ∧
    ∀ k, RunOp.setKey k true ∉ [RunOp.step, .timerTick, .setKey 5 false, .setKey 16 false, .step] :=
  ⟨⟨runs_of _ _ (by decide) (by decide), by decide⟩, runs_of _ _ (by decide) (by decide), by decide,
    by simp⟩

end Sys2Proof.Tests
end

/-! SUPPORT. What an instruction can write, said once, and what follows for the invariant of
`10_state.md` R25 and R26, for the writers R10 lists, and for the pieces no rule reads. -/

namespace Sys2Proof.Machine

open State

/-! ## What an instruction writes -/

/-- Where `pc` can go: it stays, it advances, it skips, or it is a jump's target. -/
def NextPc (s : State) (p : Word) : Prop :=
  p = s.pc ∨ p = s.pc + 2 ∨ p = s.pc + 4 ∨ ∃ a b, p = offsetTarget a b

/-- The states an instruction can step `s` to, by the pieces it writes (`10_state.md` R10). -/
inductive ExecEffect (s : State) : Instr → State → Prop
  /-- registers, `pc` and the outcome alone, an error's end among them -/
  | plain (i v p o) (hp : NextPc s p) : ExecEffect s i { s with v := v, pc := p, outcome := o }
  /-- `I` -/
  | index (i w) (hi : i.mnemonic ∈ ["LD_I_NNN", "ADD_I_Vx", "LD_F_Vx"]) :
      ExecEffect s i ((s.setIndex w).advance.report .ok)
  /-- the slot at `sp`, and `sp` one more -/
  | call (a) (h : s.sp.val < 16) :
      ExecEffect s (.call a) { s with
        stack := s.stack.set s.sp.val s.pc h, sp := ⟨s.sp.val + 1, by omega⟩, pc := addrWord a,
        outcome := .ok }
  /-- `sp` one less, the slots kept -/
  | ret (h : 0 < s.sp.val) :
      ExecEffect s .ret { s with
        sp := ⟨s.sp.val - 1, by omega⟩, pc := s.stack[s.sp.val - 1]'(by omega) + 2, outcome := .ok }
  /-- `DT` -/
  | delay (x) : ExecEffect s (.ldDTVx x) ((s.setDelay (s.reg x)).advance.report .ok)
  /-- `ST`, which is written only where it exists -/
  | sound (x) (h : s.params.hasSoundTimer = true) :
      ExecEffect s (.ldSTVx x) ((s.setSound (s.reg x)).advance.report .ok)
  /-- the framebuffer, with `dirty` set; a draw writes the flag register too -/
  | screen (i v fb) (hi : i.mnemonic ∈ ["CLS", "DRW_Vx_Vy_N"]) :
      ExecEffect s i (({ s with v := v, fb := fb }.setDirty true).advance.report .ok)
  /-- the mode tag -/
  | mode (i m) (hi : i.mnemonic ∈ ["LOW", "HIGH"]) : ExecEffect s i ((s.setMode m).advance.report .ok)
  /-- memory, which stays canonical -/
  | store (i m) (hi : i.mnemonic ∈ ["LD_B_Vx", "LD__I__Vx"]) (hm : Memory.wf s.mem → Memory.wf m) :
      ExecEffect s i ((s.setMem m).advance.report .ok)
  /-- registers, and one random byte drawn -/
  | draw (x nn v) : ExecEffect s (.rnd x nn) (({ s with v := v }.nextDraw).advance.report .ok)

/-- An error or a halt writes the outcome alone. -/
theorem ExecEffect.report (i : Instr) (s : State) (o : StepOutcome) : ExecEffect s i (s.report o) :=
  .plain i s.v s.pc o (.inl rfl)

/-- A straight-line instruction that writes registers alone. -/
theorem ExecEffect.regs (i : Instr) (s : State) (v : Vector Byte 16) :
    ExecEffect s i ({ s with v := v }.advance.report .ok) :=
  .plain i v (s.pc + 2) .ok (.inr (.inl rfl))

/-- A jump. -/
theorem ExecEffect.jump (i : Instr) (s : State) (a : Addr12) (b : Byte) :
    ExecEffect s i ((s.setPc (offsetTarget a b)).report .ok) :=
  .plain i s.v _ .ok (.inr (.inr (.inr ⟨a, b, rfl⟩)))

/-- A skip, taken or not. -/
theorem ExecEffect.skip (i : Instr) (s : State) (c : Bool) :
    ExecEffect s i ((s.skipIf c).report .ok) := by
  cases c
  · exact .plain i s.v _ .ok (.inr (.inl rfl))
  · exact .plain i s.v _ .ok (.inr (.inr (.inl rfl)))

theorem addrWord_eq_offsetTarget (a : Addr12) : addrWord a = offsetTarget a 0 := by
  simp [offsetTarget, byteWord]

/-- A store's answer: the error's, or the bytes stored in memory that stays canonical. -/
theorem storeBytes_effect (i : Instr) (a : Nat) (bs : List Byte) (s t : State) (hn : 0 < bs.length)
    (hi : i.mnemonic ∈ ["LD_B_Vx", "LD__I__Vx"])
    (h : storeBytes a bs s (fun r => finish r.advance) = .next t) : ExecEffect s i t := by
  rcases storeBytes_cases a bs s (fun r => finish r.advance) hn with ⟨-, m, hm, e⟩ | ⟨-, e⟩ <;>
    rw [e] at h <;> cases h
  · exact .store i m hi hm.wf
  · exact .report i s _

/-- A key test's answer: the error's, or a skip taken or not. -/
theorem withKey_effect (i : Instr) (k : Byte) (s t : State) (f : Bool → Bool)
    (h : withKey k s (fun b => finish (s.skipIf (f b))) = .next t) : ExecEffect s i t := by
  rcases withKey_cases k s (fun b => finish (s.skipIf (f b))) with ⟨hk, e⟩ | ⟨-, e⟩ <;>
    rw [e] at h <;> cases h
  · exact .skip i s _
  · exact .report i s _

theorem raiseUnknown_effect (i : Instr) (w : Word) (s t : State) (h : raiseUnknown w s = .next t) :
    ExecEffect s i t := by
  cases hp : s.params.unknownOpcodePolicy with
  | abort => rw [raiseUnknown_abort w s hp] at h; cases h; exact .report i s _
  | skip => rw [raiseUnknown_skip w s hp] at h; cases h; exact .plain i s.v _ _ (.inr (.inl rfl))

/-- Every instruction has one of the effects listed. -/
theorem exec_effect (i : Instr) (s t : State) (h : exec i s = .next t) : ExecEffect s i t := by
  cases i with
  | cls => cases h; exact .screen _ s.v _ (by simp [Instr.mnemonic])
  | ret =>
    rcases pop?_cases s with ⟨hs, e⟩ | ⟨-, e⟩ <;> simp only [exec, execRet, e] at h <;> cases h
    · exact .ret hs
    · exact .report _ s _
  | exit => cases h; exact .report _ s _
  | low => cases h; exact .mode _ _ (by simp [Instr.mnemonic])
  | high => cases h; exact .mode _ _ (by simp [Instr.mnemonic])
  | jp a =>
    rw [exec, execJp, addrWord_eq_offsetTarget] at h
    cases h; exact .jump _ s a 0
  | jpV0 a => cases h; exact .jump _ s a _
  | call a =>
    rcases push?_cases s s.pc with ⟨hs, e⟩ | ⟨-, e⟩ <;> simp only [exec, execCall, e] at h <;> cases h
    · exact .call a hs
    · exact .report _ s _
  | seImm x nn | sneImm x nn | seReg x y | sneReg x y => cases h; exact .skip _ s _
  | ldImm x nn | addImm x nn | ldReg x y | orReg x y | andReg x y | xorReg x y | addReg x y
  | subReg x y | shr x | subnReg x y | shl x | ldVxDT x => cases h; exact .regs _ s _
  | ldI a => cases h; exact .index _ _ (by simp [Instr.mnemonic])
  | addI x | ldF x => cases h; exact .index _ _ (by simp [Instr.mnemonic])
  | rnd x nn => cases h; exact .draw x nn _
  | drw x y n =>
    rcases loadBytes_cases s.indexAddress n.val s _ with ⟨-, e⟩ | ⟨-, -, e⟩ <;>
      rw [exec, execDrw, e] at h <;> cases h
    · exact .screen _ _ _ (by simp [Instr.mnemonic])
    · exact .report _ s _
  | skp x => exact withKey_effect _ _ s t id h
  | sknp x => exact withKey_effect _ _ s t (!·) h
  | ldVxK x =>
    cases hk : s.lowestPressed <;> simp only [exec, execLdVxK, hk] at h <;> cases h
    · exact .report _ s _
    · exact .regs _ s _
  | ldDTVx x => cases h; exact .delay x
  | ldB x => exact storeBytes_effect _ _ _ s t (by simp [bcdDigits]) (by simp [Instr.mnemonic]) h
  | storeRegs x => exact storeBytes_effect _ _ _ s t (by simp) (by simp [Instr.mnemonic]) h
  | loadRegs x =>
    rcases loadBytes_cases s.indexAddress (x.val + 1) s _ with ⟨-, e⟩ | ⟨-, -, e⟩ <;>
      rw [exec, execLoadRegs, e] at h
    · obtain ⟨v, hv⟩ := setRegsFrom_eq 0 ((List.range' s.indexAddress (x.val + 1)).map s.readByte) s
      rw [hv] at h; cases h; exact .regs _ s v
    · cases h; exact .report _ s _
  | ldSTVx x =>
    rw [exec, execLdSTVx] at h
    split at h
    · cases h; exact .sound x ‹_›
    · exact raiseUnknown_effect _ _ s t h

/-- Every step writes registers, `pc` and the outcome alone, or has an effect of the instruction it
runs. -/
theorem step_effect (s t : State) (h : step s = .next t) :
    (∃ p o, (p = s.pc ∨ s.canFetch ∧ p = s.pc + 2) ∧ t = (s.setPc p).report o) ∨
    ∃ i, Runs s i ∧ ExecEffect s i t := by
  rcases step_inv s t h with ⟨-, e⟩ | ⟨hf, -, ⟨-, e⟩ | ⟨-, e⟩⟩ | ⟨i, hr, e⟩
  · exact .inl ⟨s.pc, _, .inl rfl, e⟩
  · exact .inl ⟨s.pc, _, .inl rfl, e⟩
  · exact .inl ⟨s.pc + 2, _, .inr ⟨hf, rfl⟩, e⟩
  · exact .inr ⟨i, hr, exec_effect i s t e⟩

/-- Settles O17: the effects name each piece's writers. -/
theorem eachPieceWrittenByItsWritersAlone : Obligations.EachPieceWrittenByItsWritersAlone := by
  unfold Obligations.EachPieceWrittenByItsWritersAlone
  intro s t h
  rcases step_effect s t h with ⟨p, o, -, rfl⟩ | ⟨i, hr, he⟩
  · simp
  · cases he with
    | plain => simp
    | index _ _ hi | mode _ _ hi | store _ _ hi => simpa using fun _ => ⟨i, hr, hi⟩
    | screen _ _ _ hi => simpa using ⟨fun _ => ⟨i, hr, hi⟩, fun _ => ⟨i, hr, hi⟩⟩
    | call =>
      simpa using ⟨fun _ => ⟨_, hr, by simp [Instr.mnemonic]⟩,
        fun _ => ⟨_, hr, by simp [Instr.mnemonic]⟩⟩
    | ret => simpa using fun _ => ⟨_, hr, by simp [Instr.mnemonic]⟩
    | delay | sound => simpa using fun _ => ⟨_, hr, by simp [Instr.mnemonic]⟩
    | draw => simpa using ⟨_, hr, by simp [Instr.mnemonic]⟩

/-! ## The invariant (`10_state.md` R25, R26) -/

namespace State.Inv

variable {s : State}

theorem report (h : s.Inv) (o : StepOutcome) : (s.report o).Inv :=
  ⟨h.memoryCanonical, h.pcBounded, h.liveSlotsBounded, h.soundTimerAbsent⟩

theorem setPc (h : s.Inv) (p : Word) (hp : p.toNat ≤ 0x10FE) : (s.setPc p).Inv :=
  ⟨h.memoryCanonical, hp, h.liveSlotsBounded, h.soundTimerAbsent⟩

theorem setMem (h : s.Inv) (m : Memory) (hm : Memory.wf m) : (s.setMem m).Inv :=
  ⟨hm, h.pcBounded, h.liveSlotsBounded, h.soundTimerAbsent⟩

theorem setSound (h : s.Inv) (b : Byte) (hb : s.params.hasSoundTimer = false → b = 0) :
    (s.setSound b).Inv :=
  ⟨h.memoryCanonical, h.pcBounded, h.liveSlotsBounded, hb⟩

/-- The pieces the invariant does not speak of may be anything. -/
theorem others (h : s.Inv) (v i dt key fb dirty mode draws o) :
    State.Inv { s with v := v, i := i, dt := dt, key := key, fb := fb, dirty := dirty, mode := mode,
                       draws := draws, outcome := o } :=
  ⟨h.memoryCanonical, h.pcBounded, h.liveSlotsBounded, h.soundTimerAbsent⟩

theorem advance (h : s.Inv) (hf : s.canFetch) : s.advance.Inv := by
  have hf : s.pc.toNat + 1 < 4096 := hf
  exact h.setPc _ (by bv_omega)

end State.Inv

theorem offsetTarget_le (a : Addr12) (b : Byte) : (offsetTarget a b).toNat ≤ 0x10FE := by
  simp only [offsetTarget, addrWord, byteWord]
  bv_omega

theorem NextPc.le {s : State} {p : Word} (hf : s.canFetch) (h : NextPc s p) : p.toNat ≤ 0x10FE := by
  have hf : s.pc.toNat + 1 < 4096 := hf
  rcases h with rfl | rfl | rfl | ⟨a, b, rfl⟩
  · omega
  · bv_omega
  · bv_omega
  · exact offsetTarget_le a b

/-- An effect of a fetched instruction keeps the invariant. -/
theorem ExecEffect.keeps_inv {s t : State} {i : Instr} (he : ExecEffect s i t) (hf : s.canFetch)
    (hi : s.Inv) : t.Inv := by
  cases he with
  | plain _ _ _ _ hp =>
    exact ⟨hi.memoryCanonical, hp.le hf, hi.liveSlotsBounded, hi.soundTimerAbsent⟩
  | index | mode | delay | draw | screen =>
    refine .report (.advance ?_ ?_) _
    · exact hi.others ..
    · exact hf
  | sound _ h =>
    refine .report (.advance ?_ ?_) _
    · exact hi.setSound _ (by simp [h])
    · exact hf
  | store _ m _ hm =>
    refine .report (.advance ?_ ?_) _
    · exact hi.setMem m (hm hi.memoryCanonical)
    · exact hf
  | call a h =>
    have hpc : addrWord a = offsetTarget a 0 := addrWord_eq_offsetTarget a
    refine ⟨hi.memoryCanonical, hpc ▸ offsetTarget_le a 0, fun k hk => ?_, hi.soundTimerAbsent⟩
    have hf : s.pc.toNat + 1 < 4096 := hf
    have hk : k.val < s.sp.val + 1 := hk
    simp only [Fin.getElem_fin, Vector.getElem_set]
    split
    · omega
    · exact hi.liveSlotsBounded k (by omega)
  | ret h =>
    have hslot := hi.liveSlotsBounded ⟨s.sp.val - 1, by omega⟩ (show s.sp.val - 1 < s.sp.val by omega)
    rw [Fin.getElem_fin] at hslot
    refine ⟨hi.memoryCanonical, ?_, fun k hk => ?_, hi.soundTimerAbsent⟩
    · show (s.stack[s.sp.val - 1]'_ + 2).toNat ≤ 0x10FE
      bv_omega
    · exact hi.liveSlotsBounded k (Nat.lt_of_lt_of_le hk (Nat.sub_le _ _))

/-- Settles O10: a failed fetch and an unknown word move `pc` by 2 at most, and the effect of an
instruction keeps the invariant. -/
theorem stepKeepsInvariant : Obligations.StepKeepsInvariant := by
  unfold Obligations.StepKeepsInvariant
  intro s t hi h
  rcases step_effect s t h with ⟨p, o, hp, rfl⟩ | ⟨i, hr, he⟩
  · refine (hi.setPc p ?_).report o
    rcases hp with rfl | ⟨hf, rfl⟩
    · exact hi.pcBounded
    · exact NextPc.le hf (.inr (.inl rfl))
  · exact he.keeps_inv hr.1 hi

/-! ## The host's operations -/

/-- Settles O11: memory lists nothing, `pc` is 0x200, no slot is live, `ST` is 0. -/
theorem resetMeetsInvariant : Obligations.ResetMeetsInvariant := fun _ =>
  ⟨Memory.wf_reset, by simp [pcBounded, State.reset], fun k hk => by simp [State.reset] at hk,
    fun _ => rfl⟩

theorem State.Inv.hostReset (s : State) : s.hostReset.Inv :=
  (resetMeetsInvariant s.params).others _ _ _ _ _ _ _ s.draws _

/-- Everything a load of a program can do. -/
theorem loadRom_cases (bytes : List Byte) (s : State) :
    (bytes.length ≤ 3584 ∧ ∃ m, Stored 0x200 bytes s.mem m ∧
      s.loadRom bytes = .next ((s.setMem m).report .ok)) ∨
    (3584 < bytes.length ∧
      s.loadRom bytes = .next (s.report (.error (.romTooLarge bytes.length)))) := by
  by_cases h : 3584 < bytes.length
  · exact .inr ⟨h, if_pos h⟩
  · obtain ⟨m, hm, e⟩ := storeBytes_inside 0x200 bytes s finish (by omega)
    refine .inl ⟨by omega, m, hm, (if_neg h).trans ?_⟩
    rw [storeBytes, checkBounds_inside _ _ _ _ (.inr (by omega))] at e
    exact e

theorem loadRom_keeps_inv (bytes : List Byte) (s t : State) (hi : s.Inv)
    (h : s.loadRom bytes = .next t) : t.Inv := by
  rcases loadRom_cases bytes s with ⟨-, m, hm, e⟩ | ⟨-, e⟩ <;> rw [e] at h <;> cases h
  · exact (hi.setMem m (hm.wf hi.memoryCanonical)).report _
  · exact hi.report _

/-- Everything a key event can do. -/
theorem setKey_cases (k : Nat) (b : Bool) (s : State) :
    (∃ h : k < 16, s.setKey k b = .next (s.setKeyLatch ⟨k, h⟩ b)) ∨
    (15 < k ∧ s.setKey k b = .refused (.keyIndexOutOfRange k)) := by
  by_cases h : k < 16
  · exact .inl ⟨h, dif_pos h⟩
  · exact .inr ⟨by omega, dif_neg h⟩

theorem setKey_keeps_inv (k : Nat) (b : Bool) (s t : State) (hi : s.Inv)
    (h : s.setKey k b = .next t) : t.Inv := by
  rcases setKey_cases k b s with ⟨hk, e⟩ | ⟨-, e⟩ <;> rw [e] at h <;> cases h
  exact hi.others ..

theorem timerTick_keeps_inv (s : State) (hi : s.Inv) : s.timerTick.Inv := by
  refine State.Inv.setSound (hi.others ..) _ fun h => ?_
  have h : s.params.hasSoundTimer = false := h
  simp [h, hi.soundTimerAbsent h]

/-- The session's answer is a next one only where the operation's is. -/
theorem wrap_eq_next {b : Bool} {r : Result} {v : Session} (h : Session.wrap b r = .next v) :
    r = .next v.core := by
  cases r <;> cases h; rfl

/-- Settles O55, one lemma for each operation. -/
theorem everyHostOperationKeepsInvariant : Obligations.EveryHostOperationKeepsInvariant := by
  unfold Obligations.EveryHostOperationKeepsInvariant
  intro op u v hi h
  cases op with
  | reset => cases h; exact .hostReset u.core
  | loadRom bytes =>
    simp only [Session.act] at h
    split at h
    · cases h
    · exact loadRom_keeps_inv bytes _ _ hi (wrap_eq_next h)
  | step => exact stepKeepsInvariant _ _ hi (wrap_eq_next h)
  | setKey k b => exact setKey_keeps_inv k b _ _ hi (wrap_eq_next h)
  | timerTick => cases h; exact timerTick_keeps_inv _ hi
  | readFb => cases h; exact hi
  | clearDirty => cases h; exact hi.others ..

/-- The operations of a session keep the invariant. -/
theorem run_keeps_inv (ops : List HostOp) (u : Session) (hi : u.core.Inv) :
    (Session.run ops u).core.Inv := by
  induction ops generalizing u with
  | nil => exact hi
  | cons op ops ih =>
    rw [Session.run]
    split
    · exact ih _ (everyHostOperationKeepsInvariant op u _ hi ‹_›)
    · exact hi
    · exact ih u hi

/-- Settles O12: a session starts at reset, and each operation keeps the invariant. -/
theorem hostOperationsKeepInvariant : Obligations.HostOperationsKeepInvariant := fun p ops =>
  run_keeps_inv ops _ (resetMeetsInvariant p)

theorem blankByte_font (a : Nat) (h : a < font.length) : blankByte a = font[a] := by
  simp [blankByte, h]

theorem font_length : font.length = 80 := rfl

theorem blankByte_beyond_font (a : Nat) (h : 80 ≤ a) : blankByte a = 0 := by
  rw [blankByte, List.getElem?_eq_none (by rwa [font_length])]; rfl

/-- Settles O49: memory lists nothing after reset, so every byte reads as the reset contents. -/
theorem resetRestoresEveryPiece : Obligations.ResetRestoresEveryPiece := by
  unfold Obligations.ResetRestoresEveryPiece
  intro s
  refine ⟨?_, rfl, rfl, ?_, rfl, rfl, rfl, ?_, ?_, rfl, rfl, blankByte_font, font_length,
    blankByte_beyond_font, rfl⟩
  all_goals simp [hostReset, State.reset, reg, pixel]

/-! ## What no step reads (`10_state.md` R17, R20, R21, R23) -/

/-- `s` with other values in the pieces that no rule reads. -/
def State.withOutputs (s : State) (st : Byte) (d : Bool) (m : Mode) (o : StepOutcome) : State :=
  { s with st := st, dirty := d, mode := m, outcome := o }

/-- Both answers are next states, and these differ in `ST`, `dirty` and `mode` at most. -/
def AgreeButOutputs (r r' : Result) : Prop :=
  ∃ t st d m, r = .next t ∧ r' = .next { t with st := st, dirty := d, mode := m }

theorem next_agree (t : State) (st : Byte) (d : Bool) (m : Mode) :
    AgreeButOutputs (.next t) (.next { t with st := st, dirty := d, mode := m }) :=
  ⟨t, st, d, m, rfl, rfl⟩

section Outputs

variable (s : State) (st : Byte) (d : Bool) (m : Mode) (o : StepOutcome)

theorem report_agree (o' : StepOutcome) :
    AgreeButOutputs (.next (s.report o')) (.next ((s.withOutputs st d m o).report o')) :=
  next_agree ..

theorem skip_agree (c : Bool) :
    AgreeButOutputs (finish (s.skipIf c)) (finish ((s.withOutputs st d m o).skipIf c)) := by
  cases c
  · exact next_agree ..
  · exact next_agree ..

theorem raiseUnknown_agree (w : Word) :
    AgreeButOutputs (raiseUnknown w s) (raiseUnknown w (s.withOutputs st d m o)) := by
  cases h : s.params.unknownOpcodePolicy with
  | abort =>
    rw [raiseUnknown_abort w s h, raiseUnknown_abort w (s.withOutputs st d m o) h]
    exact next_agree ..
  | skip =>
    rw [raiseUnknown_skip w s h, raiseUnknown_skip w (s.withOutputs st d m o) h]
    exact next_agree ..

theorem withKey_agree (k : Byte) (f f' : Bool → Result) (hf : ∀ b, AgreeButOutputs (f b) (f' b)) :
    AgreeButOutputs (withKey k s f) (withKey k (s.withOutputs st d m o) f') := by
  by_cases h : k.toNat < 16
  · rw [withKey_in k s f h, withKey_in k _ f' h]; exact hf _
  · rw [withKey_out k s f (by omega), withKey_out k _ f' (by omega)]; exact report_agree s st d m o _

theorem loadBytes_agree (a n : Nat) (k k' : List Byte → Result)
    (hk : ∀ bs, AgreeButOutputs (k bs) (k' bs)) :
    AgreeButOutputs (loadBytes a n s k) (loadBytes a n (s.withOutputs st d m o) k') := by
  by_cases h : n = 0 ∨ a + n ≤ 4096
  · rw [loadBytes_inside a n s k h, loadBytes_inside a n _ k' h]; exact hk _
  · rw [loadBytes_outside a n s k (by omega) (by omega),
      loadBytes_outside a n _ k' (by omega) (by omega)]
    exact report_agree s st d m o _

theorem storeBytes_of_writeBytes? (a : Nat) (bs : List Byte) (k : State → Result) (mem : Memory)
    (h : a + bs.length ≤ 4096) (hm : Memory.writeBytes? a bs s.mem = some mem) :
    storeBytes a bs s k = k (s.setMem mem) := by
  rw [storeBytes, checkBounds_inside _ _ _ _ (.inr h), hm]

theorem storeBytes_agree (a : Nat) (bs : List Byte) (hn : 0 < bs.length) :
    AgreeButOutputs (storeBytes a bs s fun t => finish t.advance)
      (storeBytes a bs (s.withOutputs st d m o) fun t => finish t.advance) := by
  by_cases h : a + bs.length ≤ 4096
  · obtain ⟨mem, hm⟩ := Option.isSome_iff_exists.mp (Memory.writeBytes?_isSome a bs s.mem h)
    rw [storeBytes_of_writeBytes? s a bs _ mem h hm,
      storeBytes_of_writeBytes? (s.withOutputs st d m o) a bs _ mem h hm]
    exact next_agree ..
  · rw [storeBytes_outside a bs s _ hn (by omega), storeBytes_outside a bs _ _ hn (by omega)]
    exact report_agree s st d m o _

theorem setRegsFrom_withOutputs (k : Nat) (bs : List Byte) :
    setRegsFrom k bs (s.withOutputs st d m o) = (setRegsFrom k bs s).withOutputs st d m o := by
  induction bs generalizing k s with
  | nil => rfl
  | cons b bs ih =>
    by_cases h : k < 16
    · simp only [setRegsFrom, h, dif_pos]; exact ih (s.setReg ⟨k, h⟩ b) _
    · simp only [setRegsFrom, h, dif_neg, not_false_eq_true]; exact ih s _

/-- No instruction reads an output. -/
theorem exec_agree (i : Instr) : AgreeButOutputs (exec i s) (exec i (s.withOutputs st d m o)) := by
  cases i with
  | ret =>
    rcases pop?_cases s with ⟨h, -⟩ | ⟨h, -⟩
    · simp only [exec, execRet, pop?_live s h, pop?_live (s.withOutputs st d m o) h]
      exact next_agree ..
    · simp only [exec, execRet, pop?_empty s h, pop?_empty (s.withOutputs st d m o) h]
      exact report_agree s st d m o _
  | call a =>
    rcases push?_cases s s.pc with ⟨h, -⟩ | ⟨h, -⟩
    · simp only [exec, execCall, push?_room s _ h, push?_room (s.withOutputs st d m o) _ h]
      exact next_agree ..
    · simp only [exec, execCall, push?_full s _ h, push?_full (s.withOutputs st d m o) _ h]
      exact report_agree s st d m o _
  | seImm x nn | sneImm x nn | seReg x y | sneReg x y => exact skip_agree s st d m o _
  | skp x => exact withKey_agree s st d m o _ _ _ fun b => skip_agree s st d m o b
  | sknp x => exact withKey_agree s st d m o _ _ _ fun b => skip_agree s st d m o !b
  | drw x y n => exact loadBytes_agree s st d m o _ _ _ _ fun _ => next_agree ..
  | ldB x => exact storeBytes_agree s st d m o _ _ (by simp [bcdDigits])
  | storeRegs x => exact storeBytes_agree s st d m o _ _ (by simp)
  | loadRegs x =>
    refine loadBytes_agree s st d m o _ _ _ _ fun bs => ?_
    rw [setRegsFrom_withOutputs]
    exact next_agree ..
  | ldVxK x =>
    have hk : (s.withOutputs st d m o).lowestPressed = s.lowestPressed := rfl
    simp only [exec, execLdVxK, hk]
    cases s.lowestPressed with
    | none => exact report_agree s st d m o .ok
    | some k => exact next_agree ..
  | ldSTVx x =>
    have hp : (s.withOutputs st d m o).params = s.params := rfl
    simp only [exec, execLdSTVx, hp]
    split
    · exact next_agree ..
    · exact raiseUnknown_agree s st d m o _
  | cls | exit | low | high | jp a | ldImm x nn | addImm x nn | ldReg x y | orReg x y | andReg x y
  | xorReg x y | addReg x y | subReg x y | shr x | subnReg x y | shl x | ldI a | jpV0 a | rnd x nn
  | ldVxDT x | ldDTVx x | addI x | ldF x => exact next_agree ..

theorem runWord_agree (w : Word) :
    AgreeButOutputs (runWord w s) (runWord w (s.withOutputs st d m o)) := by
  have hp : (s.withOutputs st d m o).params = s.params := rfl
  simp only [runWord, hp]
  split
  · exact exec_agree s st d m o _
  · exact raiseUnknown_agree s st d m o _

/-- No step reads an output: fetch and decode read `pc`, memory and the parameters. -/
theorem step_agree : AgreeButOutputs (step s) (step (s.withOutputs st d m o)) := by
  show AgreeButOutputs (fetchThen s fun w => runWord w s)
    (fetchThen (s.withOutputs st d m o) fun w => runWord w (s.withOutputs st d m o))
  by_cases h : s.canFetch
  · rw [fetchThen_inside s _ h, fetchThen_inside (s.withOutputs st d m o) _ h]
    exact runWord_agree s st d m o _
  · rw [fetchThen_outside s _ h, fetchThen_outside (s.withOutputs st d m o) _ h]
    exact report_agree s st d m o _

end Outputs

/-- Settles O16: `step_agree`, the first of its two answers being the step given. -/
theorem stepReadsNoOutputOnlyState : Obligations.StepReadsNoOutputOnlyState := by
  unfold Obligations.StepReadsNoOutputOnlyState
  intro s t st d m o h
  obtain ⟨t', st', d', m', e, e'⟩ := step_agree s st d m o
  cases h.symm.trans e
  exact ⟨st', d', m', e'⟩

end Sys2Proof.Machine

/-! ## Memory as data, and a store seen by the next fetch (`20_memory.md` R30, R32, R41) -/

namespace Sys2Proof.Machine.Memory

/-- An address that does not read as blank is listed, with the byte it reads as. -/
theorem mem_of_read_ne_blank (a : Nat) (m : Memory) (h : m.read a ≠ blankByte a) :
    (a, m.read a) ∈ m := by
  induction m with
  | nil => exact absurd rfl h
  | cons c rest ih =>
    by_cases hc : c.1 = a
    · subst hc
      simp [read]
    · simp only [read, hc, if_false] at h ⊢
      exact List.mem_cons_of_mem c (ih h)

/-- A listed address reads as the byte listed: no cell before it has its address. -/
theorem read_of_mem {m : Memory} {c : Host.Cell} (hm : m.wf) (hc : c ∈ m) : m.read c.1 = c.2 := by
  obtain ⟨hp, -⟩ := hm
  induction m with
  | nil => simp at hc
  | cons d rest ih =>
    obtain ⟨hd, hr⟩ := List.pairwise_cons.mp hp
    rcases List.mem_cons.mp hc with rfl | hc
    · simp [read]
    · have hne : d.1 ≠ c.1 := (hd c hc).ne
      simp only [read, hne, if_false]
      exact ih hc hr

/-- The cells of a canonical memory are told by reads: those bytes that are not blank. -/
theorem mem_iff_read {m : Memory} (hm : m.wf) (c : Host.Cell) :
    c ∈ m ↔ c.1 < 4096 ∧ m.read c.1 = c.2 ∧ c.2 ≠ blankByte c.1 := by
  constructor
  · intro hc
    obtain ⟨hlt, hne⟩ := hm.2 c hc
    exact ⟨hlt, read_of_mem hm hc, hne⟩
  · rintro ⟨-, hread, hne⟩
    have hmem := mem_of_read_ne_blank c.1 m (hread ▸ hne)
    rwa [hread] at hmem

end Sys2Proof.Machine.Memory

namespace Sys2Proof.Machine

/-- Settles O38: reads tell which cells each memory lists, and the addresses' order tells where. -/
theorem canonicalMemoriesReadingAlikeAreEqual : Obligations.CanonicalMemoriesReadingAlikeAreEqual := by
  unfold Obligations.CanonicalMemoriesReadingAlikeAreEqual
  intro m n hm hn hread
  have hsame : ∀ c, c ∈ m ↔ c ∈ n := fun c => by
    rw [Memory.mem_iff_read hm, Memory.mem_iff_read hn]
    exact and_congr_right fun hlt => by rw [hread c.1 hlt]
  have : Std.Asymm fun c d : Host.Cell => c.1 < d.1 := ⟨fun _ _ => lt_asymm⟩
  exact hm.1.eq_of_mem_iff hn.1 hsame

/-- LD [I],Vx inside memory completes, and stores the registers at `I` on. -/
theorem exec_storeRegs_inside (s : State) (x : RegNum) (h : s.i.toNat + x.val < 4096) :
    ∃ m, Stored s.i.toNat (s.regsUpTo x) s.mem m ∧
      exec (.storeRegs x) s = .next ((s.setMem m).advance.report .ok) :=
  storeBytes_inside s.i.toNat (s.regsUpTo x) s (fun t => finish t.advance)
    (by rw [regsUpTo_length]; omega)

/-- After a store of registers into a canonical memory the byte at `I + k` is `V[k]`. -/
theorem Stored.read_reg {s : State} {x : RegNum} {a : Nat} {m : Memory}
    (hst : Stored a (s.regsUpTo x) s.mem m) (hw : Memory.wf s.mem) (k : RegNum) (hk : k ≤ x) :
    m.read (a + k.val) = s.reg k := by
  have hlen : k.val < (s.regsUpTo x).length := by
    rw [regsUpTo_length]
    exact Nat.lt_succ_of_le hk
  rw [hst.inside hw k.val hlen, regsUpTo_getElem]

/-- Settles O19: `pc` advances to `I`, where `V[0]` and `V[1]` were stored. -/
theorem storedWordIsFetchedByTheNextStep : Obligations.StoredWordIsFetchedByTheNextStep := by
  unfold Obligations.StoredWordIsFetchedByTheNextStep
  intro s x hw hx hi hlt
  obtain ⟨m, hst, hexec⟩ := exec_storeRegs_inside s x hlt
  refine ⟨_, hexec, ?_, ?_⟩
  · show (s.pc + 2).toNat + 1 < 4096
    rw [← hi]
    omega
  · have hV0 : m.read s.i.toNat = s.reg 0 := hst.read_reg hw 0 (Fin.zero_le x)
    have hV1 : m.read (s.i.toNat + 1) = s.reg 1 := hst.read_reg hw 1 hx
    show composeWord (m.read (s.pc + 2).toNat) (m.read ((s.pc + 2).toNat + 1)) = _
    rw [← hi, hV0, hV1]

end Sys2Proof.Machine

/-! SUPPORT. The decoder and the encoder (`30_encoding.md` R46 to R53): masked words, what a decoded
word's canonical word is, the words left unknown, and the opcode map. -/

/-! ## The canonical word decodes to its instruction (R47, R49) -/

namespace Sys2Proof.Laws.RoundTrip

/-- Every instruction has its round-trip lemma. -/
theorem statement_of_instr : ∀ i : Instr, Statement i
  | .cls => cls
  | .ret => ret
  | .exit => exit
  | .low => low
  | .high => high
  | .jp a => jp a
  | .call a => call a
  | .seImm x nn => seImm x nn
  | .sneImm x nn => sneImm x nn
  | .seReg x y => seReg x y
  | .ldImm x nn => ldImm x nn
  | .addImm x nn => addImm x nn
  | .ldReg x y => ldReg x y
  | .orReg x y => orReg x y
  | .andReg x y => andReg x y
  | .xorReg x y => xorReg x y
  | .addReg x y => addReg x y
  | .subReg x y => subReg x y
  | .shr x => shr x
  | .subnReg x y => subnReg x y
  | .shl x => shl x
  | .sneReg x y => sneReg x y
  | .ldI a => ldI a
  | .jpV0 a => jpV0 a
  | .rnd x nn => rnd x nn
  | .drw x y n => drw x y n
  | .skp x => skp x
  | .sknp x => sknp x
  | .ldVxDT x => ldVxDT x
  | .ldVxK x => ldVxK x
  | .ldDTVx x => ldDTVx x
  | .addI x => addI x
  | .ldF x => ldF x
  | .ldB x => ldB x
  | .storeRegs x => storeRegs x
  | .loadRegs x => loadRegs x
  | .ldSTVx x => ldSTVx x

end Sys2Proof.Laws.RoundTrip

namespace Sys2Proof

/-- Settles O1, one round-trip lemma for each instruction. -/
theorem decodeOfEncodeIsTheInstruction : Obligations.DecodeOfEncodeIsTheInstruction := by
  unfold Obligations.DecodeOfEncodeIsTheInstruction
  intro st i hwf
  exact Laws.RoundTrip.statement_of_instr i st hwf

/-! ## Fields as masked and shifted bits (R46) -/

/-- A mask of the low `k` bits leaves the remainder. -/
theorem toNat_and_lowMask (w m : Word) (k : Nat) (hm : m.toNat = 2 ^ k - 1) :
    (w &&& m).toNat = w.toNat % 2 ^ k := by
  rw [BitVec.toNat_and, hm, Nat.and_two_pow_sub_one_eq_mod]

/-- A mask of the `k` bits from bit `j` up, shifted down, reads those bits. -/
theorem toNat_and_shiftRight (w m : Word) (j k : Nat) (hm : m.toNat >>> j = 2 ^ k - 1) :
    ((w &&& m) >>> j).toNat = w.toNat / 2 ^ j % 2 ^ k := by
  rw [BitVec.toNat_ushiftRight, BitVec.toNat_and, Nat.shiftRight_and_distrib, hm,
    Nat.and_two_pow_sub_one_eq_mod, Nat.shiftRight_eq_div_pow]

/-- Settles O5: both sides of each equation are one quotient and remainder of the opcode. -/
theorem fieldsAreMaskedAndShiftedBits : Obligations.FieldsAreMaskedAndShiftedBits := by
  unfold Obligations.FieldsAreMaskedAndShiftedBits
  intro w
  have hlt := w.isLt
  have hwide : (Machine.addrWord (fieldAddr w)).toNat = (fieldAddr w).toNat :=
    BitVec.toNat_setWidth_of_le (by decide)
  rw [toNat_and_lowMask w 0x0FFF 12 rfl, toNat_and_lowMask w 0x00FF 8 rfl,
    toNat_and_lowMask w 0x000F 4 rfl, toNat_and_shiftRight w 0x0F00 8 4 rfl,
    toNat_and_shiftRight w 0x00F0 4 4 rfl, toNat_and_shiftRight w 0xF000 12 4 rfl, hwide,
    fieldAddr_toNat, fieldNN_toNat, fieldN_val, fieldX_val, fieldY_val, fieldTop_toNat]
  refine ⟨rfl, rfl, rfl, rfl, rfl, ?top, ?addr, ?imm, rfl⟩
  case top | addr | imm => omega

/-! ## Masked words -/

theorem nibble_and_zero (x : Fin 16) : x &&& 0 = 0 := by revert x; decide

theorem nibble_and_fifteen (x : Fin 16) : x &&& 15 = x := by revert x; decide

/-- A word from a top nibble, bits 11 to 8 and a low byte is a masked word when each field is. -/
theorem wordXNN_eq_and {w m : Word} {t : BitVec 4} {x : Fin 16} {nn : Byte}
    (ht : fieldTop w &&& fieldTop m = t) (hx : fieldX w &&& fieldX m = x)
    (hnn : fieldNN w &&& fieldNN m = nn) : wordXNN t x nn = w &&& m := by
  subst ht hx hnn
  rw [← wordXNN_fields (w &&& m)]
  simp only [fieldTop, fieldX, fieldNN, BitVec.extractLsb'_and, BitVec.toFin_and]

/-- A word from four nibbles is a masked word when each nibble is. -/
theorem wordXYN_eq_and {w m : Word} {t : BitVec 4} {x y n : Fin 16}
    (ht : fieldTop w &&& fieldTop m = t) (hx : fieldX w &&& fieldX m = x)
    (hy : fieldY w &&& fieldY m = y) (hn : fieldN w &&& fieldN m = n) :
    wordXYN t x y n = w &&& m := by
  subst ht hx hy hn
  rw [← wordXYN_fields (w &&& m)]
  simp only [fieldTop, fieldX, fieldY, fieldN, BitVec.extractLsb'_and, BitVec.toFin_and]

theorem and_F0FF (w : Word) : w &&& 0xF0FF#16 = wordXNN (fieldTop w) 0 (fieldNN w) :=
  (wordXNN_eq_and BitVec.and_allOnes (nibble_and_zero _) BitVec.and_allOnes).symm

theorem and_F00F (w : Word) : w &&& 0xF00F#16 = wordXYN (fieldTop w) 0 0 (fieldN w) :=
  (wordXYN_eq_and BitVec.and_allOnes (nibble_and_zero _) (nibble_and_zero _)
    (nibble_and_fifteen _)).symm

theorem and_F000 (w : Word) : w &&& 0xF000#16 = wordXYN (fieldTop w) 0 0 0 :=
  (wordXYN_eq_and BitVec.and_allOnes (nibble_and_zero _) (nibble_and_zero _)
    (nibble_and_zero _)).symm

theorem and_FF0F (w : Word) : w &&& 0xFF0F#16 = wordXYN (fieldTop w) (fieldX w) 0 (fieldN w) :=
  (wordXYN_eq_and BitVec.and_allOnes (nibble_and_fifteen _) (nibble_and_zero _)
    (nibble_and_fifteen _)).symm

theorem and_FFF0 (w : Word) : w &&& 0xFFF0#16 = wordXYN (fieldTop w) (fieldX w) (fieldY w) 0 :=
  (wordXYN_eq_and BitVec.and_allOnes (nibble_and_fifteen _) (nibble_and_fifteen _)
    (nibble_and_zero _)).symm

/-! ## The canonical word of a decoded word (R50)

For each format: the word built from the fields decoded is the word with the format's ignored bits
cleared. -/

/-- A format without ignored bits clears nothing. -/
theorem and_not_zero (w : Word) : w &&& ~~~0x0000 = w := BitVec.and_allOnes

section Canonical

variable {w : Word} {t k : Nat} {n : Fin 16} (ht : (fieldTop w).toNat = t)
include ht

theorem fieldTop_eq_ofNat : BitVec.ofNat 4 t = fieldTop w := by
  rw [← ht, BitVec.ofNat_toNat, BitVec.setWidth_eq]

theorem canonical_NNN : wordNNN (BitVec.ofNat 4 t) (fieldAddr w) = w &&& ~~~0x0000 := by
  rw [fieldTop_eq_ofNat ht, wordNNN_fields, and_not_zero]

theorem canonical_XNN : wordXNN (BitVec.ofNat 4 t) (fieldX w) (fieldNN w) = w &&& ~~~0x0000 := by
  rw [fieldTop_eq_ofNat ht, wordXNN_fields, and_not_zero]

theorem canonical_XYN :
    wordXYN (BitVec.ofNat 4 t) (fieldX w) (fieldY w) (fieldN w) = w &&& ~~~0x0000 := by
  rw [fieldTop_eq_ofNat ht, wordXYN_fields, and_not_zero]

/-- Format X: the low byte selects the instruction. -/
theorem canonical_X (hk : (fieldNN w).toNat = k) :
    wordXNN (BitVec.ofNat 4 t) (fieldX w) (BitVec.ofNat 8 k) = w &&& ~~~0x0000 := by
  subst hk
  simpa using canonical_XNN ht

/-- Format Z: bits 11 to 8 are ignored. -/
theorem canonical_Z (hk : (fieldNN w).toNat = k) :
    wordXNN (BitVec.ofNat 4 t) 0 (BitVec.ofNat 8 k) = w &&& ~~~0x0F00 := by
  subst ht hk
  simpa using (and_F0FF w).symm

/-- Format XY in class 8: the low nibble selects the instruction. -/
theorem canonical_XYk (hn : (fieldN w).val = n.val) :
    wordXYN (BitVec.ofNat 4 t) (fieldX w) (fieldY w) n = w &&& ~~~0x0000 := by
  cases Fin.ext hn
  exact canonical_XYN ht

/-- SHR and SHL: the `y` bits are ignored. -/
theorem canonical_X_k (hn : (fieldN w).val = n.val) :
    wordXYN (BitVec.ofNat 4 t) (fieldX w) 0 n = w &&& ~~~0x00F0 := by
  cases Fin.ext hn
  subst ht
  simpa using (and_FF0F w).symm

/-- Format XY in classes 5 and 9: the low nibble is ignored. -/
theorem canonical_XY :
    wordXYN (BitVec.ofNat 4 t) (fieldX w) (fieldY w) 0 = w &&& ~~~0x000F := by
  subst ht
  simpa using (and_FFF0 w).symm

end Canonical

/-- An instruction whose canonical word is `w` with its ignored bits cleared. -/
def CanonicalOf (w : Word) (i : Instr) : Prop := encode i = w &&& ~~~ i.ignoredBits

theorem decodeClass0_canonical {w : Word} {i : Instr} (ht : (fieldTop w).toNat = 0x0)
    (h : decodeClass0 w = .instr i) : CanonicalOf w i := by
  unfold decodeClass0 at h
  split at h <;> cases h <;> exact canonical_Z ht ‹_›

theorem decodeClass8_canonical {w : Word} {i : Instr} (ht : (fieldTop w).toNat = 0x8)
    (h : decodeClass8 w = .instr i) : CanonicalOf w i := by
  unfold decodeClass8 at h
  split at h <;> cases h
  case h_7 hn | h_9 hn => exact canonical_X_k ht hn
  all_goals exact canonical_XYk ht ‹_›

theorem decodeClassE_canonical {w : Word} {i : Instr} (ht : (fieldTop w).toNat = 0xE)
    (h : decodeClassE w = .instr i) : CanonicalOf w i := by
  unfold decodeClassE at h
  split at h <;> cases h <;> exact canonical_X ht ‹_›

theorem decodeClassF_canonical {w : Word} {i : Instr} {st : Bool} (ht : (fieldTop w).toNat = 0xF)
    (h : decodeClassF st w = .instr i) : CanonicalOf w i := by
  unfold decodeClassF at h
  split at h
  case h_4 hk =>
    split at h <;> cases h
    exact canonical_X ht hk
  all_goals cases h <;> exact canonical_X ht ‹_›

/-- What a word decodes to has the word, its ignored bits cleared, as canonical word. -/
theorem decode_canonical {st : Bool} {w : Word} {i : Instr} (h : decode st w = .instr i) :
    CanonicalOf w i := by
  unfold decode at h
  split at h
  case h_1 ht => exact decodeClass0_canonical ht h
  case h_9 ht => exact decodeClass8_canonical ht h
  case h_15 ht => exact decodeClassE_canonical ht h
  case h_16 =>
    have ht : (fieldTop w).toNat = 0xF := by
      simp only [imp_false] at *
      omega
    exact decodeClassF_canonical ht h
  all_goals cases h
  case h_2 | h_3 | h_11 | h_12 => exact canonical_NNN ‹_›
  case h_6 | h_10 => exact canonical_XY ‹_›
  case h_14 ht => exact canonical_XYN ht
  all_goals exact canonical_XNN ‹_›

/-- Settles O2: `decode_wf`, and one format lemma for each way a word decodes. -/
theorem encodeOfDecodeClearsIgnoredBits : Obligations.EncodeOfDecodeClearsIgnoredBits := by
  unfold Obligations.EncodeOfDecodeClearsIgnoredBits
  intro st w i h
  exact ⟨decode_wf st w i h, decode_canonical h⟩

/-! ## Unknown words (R51, R53) -/

/-- Decoding found no instruction. -/
def Decoded.isUnknown : Decoded → Bool
  | .instr _ => false
  | .unknown _ => true

theorem decodeClass0_isUnknown (w : Word) : (decodeClass0 w).isUnknown =
    !([0xE0, 0xEE, 0xFD, 0xFE, 0xFF].contains (fieldNN w).toNat) := by
  unfold decodeClass0
  split <;> simp_all [Decoded.isUnknown]

theorem decodeClass8_isUnknown (w : Word) : (decodeClass8 w).isUnknown =
    [0x8, 0x9, 0xA, 0xB, 0xC, 0xD, 0xF].contains (fieldN w).val := by
  unfold decodeClass8
  split <;> simp_all [Decoded.isUnknown]
  omega

theorem decodeClassE_isUnknown (w : Word) : (decodeClassE w).isUnknown =
    !([0x9E, 0xA1].contains (fieldNN w).toNat) := by
  unfold decodeClassE
  split <;> simp_all [Decoded.isUnknown]

theorem decodeClassF_isUnknown (st : Bool) (w : Word) : (decodeClassF st w).isUnknown =
    (!([0x07, 0x0A, 0x15, 0x1E, 0x29, 0x33, 0x55, 0x65].contains (fieldNN w).toNat) &&
      !(st && (fieldNN w).toNat == 0x18)) := by
  cases st <;> unfold decodeClassF <;> split <;> simp_all [Decoded.isUnknown]

/-- Class by class, the decoder knows the words R51 does not list. -/
theorem decode_isUnknown (st : Bool) (w : Word) : (decode st w).isUnknown = listedUnknown st w := by
  have hlt := (fieldTop w).isLt
  unfold decode listedUnknown
  rw [← fieldTop_toNat, ← fieldNN_toNat, ← fieldN_val]
  generalize (fieldTop w).toNat = t at hlt ⊢
  split
  case h_1 => exact decodeClass0_isUnknown w
  case h_9 => exact decodeClass8_isUnknown w
  case h_15 => exact decodeClassE_isUnknown w
  case h_16 =>
    obtain rfl : t = 0xF := by
      simp only [imp_false] at *
      omega
    exact decodeClassF_isUnknown st w
  all_goals rfl

/-- Settles O4: what is listed is unknown, and an unknown word is reported as itself. -/
theorem unknownWordsAreExactlyThoseListed : Obligations.UnknownWordsAreExactlyThoseListed := by
  unfold Obligations.UnknownWordsAreExactlyThoseListed
  intro st w
  rw [← decode_isUnknown]
  cases hd : decode st w with
  | instr i => simp [Decoded.isUnknown]
  | unknown w' =>
    obtain rfl := decode_unknown st w w' hd
    simp [Decoded.isUnknown]

/-! ## The opcode map (R49) -/

/-- The bits that select a word's instruction, told by its top nibble. -/
def selectMask (w : Word) : Word :=
  match (fieldTop w).toNat with
  | 0x0 | 0xE | 0xF => 0xF0FF#16
  | 0x8 => 0xF00F#16
  | _ => 0xF000#16

theorem selectMask_congr {w v : Word} (h : fieldTop w = fieldTop v) :
    selectMask w = selectMask v := by
  rw [selectMask, selectMask, h]

theorem fieldTop_and (w m : Word) (hm : fieldTop m = BitVec.allOnes 4) :
    fieldTop (w &&& m) = fieldTop w := by
  rw [fieldTop, BitVec.extractLsb'_and, ← fieldTop, ← fieldTop, hm, BitVec.and_allOnes]

theorem fieldTop_selectMask (w : Word) : fieldTop (selectMask w) = BitVec.allOnes 4 := by
  unfold selectMask
  split <;> rfl

/-- Whether a word is listed as unknown is told by its selecting bits. -/
theorem listedUnknown_and_selectMask (st : Bool) (w : Word) :
    listedUnknown st (w &&& selectMask w) = listedUnknown st w := by
  unfold listedUnknown
  rw [← fieldTop_toNat, ← fieldTop_toNat, fieldTop_and w _ (fieldTop_selectMask w),
    ← fieldNN_toNat, ← fieldNN_toNat, ← fieldN_val, ← fieldN_val]
  unfold selectMask
  split
  case h_1 ht | h_2 ht | h_3 ht => simp only [ht, and_F0FF, fieldNN_wordXNN]
  case h_4 ht => simp only [ht, and_F00F, fieldN_wordXYN]
  case h_5 => split <;> simp_all only [imp_false, not_true]

/-- A row's mask is the selecting bits of its match. -/
theorem opcodeMap_mask : ∀ row ∈ opcodeMap, row.mask = selectMask row.value := by decide

/-- A row's mask covers the top nibble, so the row matches exactly the words whose own selecting bits
are its match. -/
theorem and_mask_eq_value_iff {row : OpcodeRow} (hrow : row ∈ opcodeMap) (w : Word) :
    w &&& row.mask = row.value ↔ w &&& selectMask w = row.value := by
  rw [opcodeMap_mask row hrow]
  constructor <;> intro h
  · have ht := fieldTop_and w _ (fieldTop_selectMask row.value)
    rwa [selectMask_congr (ht.symm.trans (congrArg fieldTop h))]
  · have ht := fieldTop_and w _ (fieldTop_selectMask w)
    rwa [← selectMask_congr (ht.symm.trans (congrArg fieldTop h))]

theorem opcodeMap_mnemonics_nodup : (opcodeMap.map OpcodeRow.mnemonic).Nodup := by decide

theorem opcodeMap_values_nodup : (opcodeMap.map OpcodeRow.value).Nodup := by decide

/-- No row's match is listed as unknown, LD ST,Vx's only without the sound timer. -/
theorem opcodeMap_known : ∀ (st : Bool), ∀ row ∈ opcodeMap,
    (row.mnemonic = "LD_ST_Vx" → st = true) → listedUnknown st row.value = false := by decide

/-- The top nibble is never ignored. -/
theorem fieldTop_not_ignoredBits (i : Instr) : fieldTop (~~~ i.ignoredBits) = BitVec.allOnes 4 := by
  cases i <;> simp only [Instr.ignoredBits] <;> rfl

/-- No ignored bit selects. -/
theorem not_ignoredBits_and_selectMask (i : Instr) :
    ~~~ i.ignoredBits &&& selectMask (encode i) = selectMask (encode i) := by
  cases i <;> simp only [Instr.ignoredBits, encode, selectMask, fieldTop_wordNNN, fieldTop_wordXNN,
    fieldTop_wordXYN] <;> rfl

/-- The selecting bits of an instruction's canonical word are its row's match. -/
theorem encode_row (i : Instr) : ∃ row ∈ opcodeMap,
    row.mnemonic = i.mnemonic ∧ encode i &&& selectMask (encode i) = row.value := by
  cases i <;> simp [encode, selectMask, and_F0FF, and_F00F, and_F000, Instr.mnemonic] <;> decide

/-- The selecting bits of a word that decodes are the match of its instruction's row. -/
theorem decode_row {st : Bool} {w : Word} {i : Instr} (h : decode st w = .instr i) :
    ∃ row ∈ opcodeMap, row.mnemonic = i.mnemonic ∧ w &&& selectMask w = row.value := by
  obtain ⟨row, hrow, hm, hv⟩ := encode_row i
  have hc : encode i = w &&& ~~~ i.ignoredBits := decode_canonical h
  have ht : fieldTop (encode i) = fieldTop w := by
    rw [hc, fieldTop_and w _ (fieldTop_not_ignoredBits i)]
  refine ⟨row, hrow, hm, ?_⟩
  calc w &&& selectMask w
      = w &&& (~~~ i.ignoredBits &&& selectMask (encode i)) := by
        rw [not_ignoredBits_and_selectMask, selectMask_congr ht]
    _ = encode i &&& selectMask (encode i) := by rw [← BitVec.and_assoc, ← hc]
    _ = row.value := hv

/-- Settles O3: a word's selecting bits are the match of the one row of its instruction, and a word
with a row's match is not listed as unknown. -/
theorem opcodeMapSelectsByMaskAndMatch : Obligations.OpcodeMapSelectsByMaskAndMatch := by
  unfold Obligations.OpcodeMapSelectsByMaskAndMatch
  intro st w row hrow hst
  rw [and_mask_eq_value_iff hrow]
  constructor
  · intro h
    have hknown : listedUnknown st w = false := by
      rw [← listedUnknown_and_selectMask, h, opcodeMap_known st row hrow hst]
    obtain ⟨i, hi⟩ := (unknownWordsAreExactlyThoseListed st w).2 hknown
    obtain ⟨row', hrow', hm, hv⟩ := decode_row hi
    obtain rfl := List.inj_on_of_nodup_map opcodeMap_values_nodup hrow' hrow (hv.symm.trans h)
    exact ⟨i, hi, hm.symm⟩
  · rintro ⟨i, hi, hmi⟩
    obtain ⟨row', hrow', hm, hv⟩ := decode_row hi
    obtain rfl := List.inj_on_of_nodup_map opcodeMap_mnemonics_nodup hrow' hrow (hm.trans hmi)
    exact hv

/-! ## Words of the spec's examples (`95_test_vectors.md`) -/

/-- Settles O6 by running the decoder on the ten words. -/
theorem sampleWordsDecode : Obligations.SampleWordsDecode := by
  unfold Obligations.SampleWordsDecode
  decide

end Sys2Proof

/-! SUPPORT. Control transfer (`40_control_transfer.md`): the frame of an instruction that ends by
moving `pc`, the targets as numbers, and what a call and a return answer on each stack. -/

namespace Sys2Proof.Machine

open State

/-! ## The frame of an instruction -/

theorem Unchanged.refl (s : State) (p : Part) : Unchanged s s p := by
  cases p with
  | stack => exact ⟨rfl, rfl⟩
  | memory => exact fun _ => rfl
  | framebuffer => exact fun _ _ => rfl
  | index | delayTimer | soundTimer | keys | dirty | mode | params | draws => rfl

theorem SameBut.refl (parts : List Part) (s : State) : SameBut parts s s :=
  fun p _ => Unchanged.refl s p

/-- No frame speaks of `pc` or of the outcome. -/
theorem SameBut.setPc_report {parts : List Part} {s t : State} (h : SameBut parts s t) (w : Word)
    (o : StepOutcome) : SameBut parts s ((t.setPc w).report o) := by
  intro p hp
  have hu : Unchanged s t p := h p hp
  cases p <;> exact hu

/-- Writing the stack pointer and the slots leaves every other piece alone. -/
theorem sameBut_stack (s : State) (slots : Vector Word 16) (n : Fin 17) :
    SameBut [.stack] s { s with stack := slots, sp := n } := by
  intro p hp
  have hrefl : Unchanged s s p := .refl s p
  cases p with
  | stack => exact absurd (List.mem_singleton_self _) hp
  | _ => exact hrefl

/-- An instruction that writes the pieces in which `t` differs from `s`, moves `pc` and ends `Ok`. -/
theorem CompletesWith.of_setPc {i : Instr} {s t : State} {w : Word} {regs : List RegNum}
    {parts : List Part} {P : State → Prop} (he : exec i s = .next ((t.setPc w).report .ok))
    (hr : RegsBut regs s t) (hs : SameBut parts s t) (hP : P ((t.setPc w).report .ok)) :
    CompletesWith i s regs parts P :=
  ⟨_, he, rfl, hr, hs.setPc_report w .ok, hP⟩

/-- An instruction that moves `pc` and writes nothing else. -/
theorem completesWith_setPc {i : Instr} {s : State} {w : Word} {P : State → Prop}
    (he : exec i s = .next ((s.setPc w).report .ok)) (hP : P ((s.setPc w).report .ok)) :
    CompletesWith i s [] [] P :=
  .of_setPc he (fun _ _ => rfl) (.refl [] s) hP

/-! ## Jumps (R62, R68) -/

@[simp] theorem addrWord_toNat (a : Addr12) : (addrWord a).toNat = a.toNat :=
  BitVec.toNat_setWidth_of_le (by decide)

@[simp] theorem byteWord_toNat (b : Byte) : (byteWord b).toNat = b.toNat :=
  BitVec.toNat_setWidth_of_le (by decide)

/-- The sum of a 12-bit address and a byte fits in `pc`, so it does not wrap. -/
theorem offsetTarget_toNat (a : Addr12) (b : Byte) :
    (offsetTarget a b).toNat = a.toNat + b.toNat := by
  rw [offsetTarget, BitVec.toNat_add, addrWord_toNat, byteWord_toNat]
  have ha := a.isLt
  have hb := b.isLt
  omega

/-- Settles O20: each target as a number. -/
theorem jumpsSetPcToTheTarget : Obligations.JumpsSetPcToTheTarget := by
  unfold Obligations.JumpsSetPcToTheTarget
  intro s a
  exact ⟨completesWith_setPc rfl (addrWord_toNat a),
    completesWith_setPc rfl (offsetTarget_toNat a (s.reg 0))⟩

/-! ## Calls and returns (R61, R63) -/

theorem exec_call_room (s : State) (a : Addr12) (h : s.sp.val < 16) :
    exec (.call a) s = .next
      (({ s with stack := s.stack.set s.sp.val s.pc h, sp := ⟨s.sp.val + 1, by omega⟩ }.setPc
        (addrWord a)).report .ok) := by
  simp only [exec, execCall, push?_room s s.pc h, finish_eq]

theorem exec_call_full (s : State) (a : Addr12) (h : s.sp.val = 16) :
    exec (.call a) s = .next (s.report (.error .stackOverflow)) := by
  simp only [exec, execCall, push?_full s s.pc (Fin.ext h), raise_eq]

/-- A return with `k` the highest live slot. -/
theorem exec_ret_live (s : State) (k : Fin 16) (h : s.sp.val = k.val + 1) :
    exec .ret s = .next (({ s with sp := k.castSucc }.setPc (s.stack[k] + 2)).report .ok) := by
  have hk : s.sp.val - 1 = k.val := by omega
  have hpos : 0 < s.sp.val := by omega
  simp only [exec, execRet, pop?_live s hpos, finish_eq, hk]
  rfl

theorem exec_ret_empty (s : State) (h : s.sp.val = 0) :
    exec .ret s = .next (s.report (.error .stackUnderflow)) := by
  simp only [exec, execRet, pop?_empty s (Fin.ext h), raise_eq]

/-- Settles O23: the slot the return pops is the one the call wrote. -/
theorem returnComesBackAfterTheCall : Obligations.ReturnComesBackAfterTheCall := by
  unfold Obligations.ReturnComesBackAfterTheCall
  intro s a hroom
  refine ⟨_, exec_call_room s a hroom, rfl, fun u hsp hstack => ?_⟩
  let k : Fin 16 := ⟨s.sp.val, hroom⟩
  have hlive : u.sp.val = k.val + 1 := congrArg Fin.val hsp
  have hslot : u.stack[k] = s.pc := by
    rw [hstack]
    exact Vector.getElem_set_self hroom
  refine ⟨_, exec_ret_live u k hlive, rfl, ?_, rfl⟩
  show u.stack[k] + 2 = s.pc + 2
  rw [hslot]

/-- Settles O21: the two answers of a push. -/
theorem callPushesItsOwnAddress : Obligations.CallPushesItsOwnAddress := by
  unfold Obligations.CallPushesItsOwnAddress
  intro s a
  refine ⟨fun hroom => ?_, exec_call_full s a⟩
  refine .of_setPc (exec_call_room s a hroom) (fun _ _ => rfl) (sameBut_stack s _ _)
    ⟨addrWord_toNat a, rfl, fun k => ?_⟩
  show (s.stack.set s.sp.val s.pc hroom)[k.val] = _
  rw [Vector.getElem_set]
  exact if_congr eq_comm rfl rfl

/-- Settles O22: the two answers of a pop. -/
theorem returnPopsAndAddsTwo : Obligations.ReturnPopsAndAddsTwo := by
  unfold Obligations.ReturnPopsAndAddsTwo
  intro s
  refine ⟨fun k hk => ?_, exec_ret_empty s⟩
  exact .of_setPc (exec_ret_live s k hk) (fun _ _ => rfl) (sameBut_stack s _ _)
    ⟨rfl, rfl, BitVec.toNat_add _ _⟩

/-! ## Skips (R64 to R67) -/

theorem skipIf_eq_setPc (s : State) (c : Bool) :
    s.skipIf c = s.setPc (if c then s.pc + 4 else s.pc + 2) := by cases c <;> rfl

/-- An instruction that skips on the test `c` of the condition `q`. -/
theorem completesWith_skipIf {i : Instr} {s : State} {c : Bool} {q : Prop} [Decidable q]
    (he : exec i s = .next ((s.skipIf c).report .ok)) (hc : c = true ↔ q) :
    CompletesWith i s [] [] (fun t => t.pc = if q then s.pc + 4 else s.pc + 2) := by
  rw [skipIf_eq_setPc] at he
  exact completesWith_setPc he (if_congr hc rfl rfl)

/-- Settles O24: each instruction's test decides its condition. -/
theorem skipsAdvanceByFourOrTwo : Obligations.SkipsAdvanceByFourOrTwo := by
  unfold Obligations.SkipsAdvanceByFourOrTwo
  intro s x y nn
  exact ⟨completesWith_skipIf rfl beq_iff_eq, completesWith_skipIf rfl bne_iff_ne,
    completesWith_skipIf rfl beq_iff_eq, completesWith_skipIf rfl bne_iff_ne⟩

end Sys2Proof.Machine

/-! SUPPORT. Registers and arithmetic (`41_alu.md`): the frame of an instruction that writes `V[x]`,
and of one that writes the flag register after it; the flags and the byte results as numbers. -/

namespace Sys2Proof.Machine

open State

/-! ## The frame of a register write -/

/-- No frame speaks of the registers. -/
theorem SameBut.setReg {parts : List Part} {s t : State} (h : SameBut parts s t) (x : RegNum)
    (r : Byte) : SameBut parts s (t.setReg x r) := by
  intro p hp
  have hu : Unchanged s t p := h p hp
  cases p <;> exact hu

theorem SameBut.setResultAndFlag {parts : List Part} {s t : State} (h : SameBut parts s t)
    (x : RegNum) (r : Byte) (c : Bool) : SameBut parts s (t.setResultAndFlag x r c) :=
  (h.setReg x r).setReg flagReg (flagByte c)

theorem regsBut_setReg (s : State) (x : RegNum) (r : Byte) : RegsBut [x] s (s.setReg x r) :=
  fun k hk => setReg_reg_ne s x r k (List.ne_of_not_mem_cons hk)

theorem regsBut_setResultAndFlag (s : State) (x : RegNum) (r : Byte) (c : Bool) :
    RegsBut [x, flagReg] s (s.setResultAndFlag x r c) := by
  intro k hk
  obtain ⟨hx, hf⟩ := List.ne_and_not_mem_of_not_mem_cons hk
  exact setResultAndFlag_reg_ne s x r c k hx (List.ne_of_not_mem_cons hf)

/-- An instruction that writes `V[x]` and nothing else. -/
theorem completesWith_finishReg {i : Instr} {s : State} {x : RegNum} {r : Byte} {P : State → Prop}
    (he : exec i s = finishReg x r s)
    (hP : ∀ t : State, t.pc = s.pc + 2 → t.reg x = r → P t) : CompletesWith i s [x] [] P :=
  .of_setPc he (regsBut_setReg s x r) ((SameBut.refl [] s).setReg x r)
    (hP _ rfl (setReg_reg_same s x r))

/-- An instruction that writes a byte of value `n` to `V[x]`, then the flag register, and nothing
else: with `x` the flag register, the flag stays (R70 g). -/
theorem completesWith_finishRegFlag {i : Instr} {s : State} {x : RegNum} {r : Byte} {c : Bool}
    {n : Nat} {P : State → Prop} (he : exec i s = finishRegFlag x r c s) (hn : r.toNat = n)
    (hP : ∀ t : State, t.pc = s.pc + 2 → (x ≠ flagReg → (t.reg x).toNat = n) →
      t.reg flagReg = flagByte c → P t) : CompletesWith i s [x, flagReg] [] P := by
  refine .of_setPc he (regsBut_setResultAndFlag s x r c)
    ((SameBut.refl [] s).setResultAndFlag x r c)
    (hP _ rfl (fun hne => ?_) (setResultAndFlag_reg_flag s x r c))
  rw [report_reg, setPc_reg, setResultAndFlag_reg_result s x r c hne, hn]

/-! ## Flags as values -/

theorem flagByte_eq_ite {c : Bool} {q : Prop} [Decidable q] (h : c = true ↔ q) :
    flagByte c = if q then 0x01 else 0x00 := if_congr h rfl rfl

theorem flagByte_toNat (c : Bool) : (flagByte c).toNat = c.toNat := by cases c <;> rfl

theorem carryFlag_iff (a b : Byte) : carryFlag a b = true ↔ a.toNat + b.toNat > 255 :=
  decide_eq_true_iff

theorem subFlag_iff (a b : Byte) : subFlag a b = true ↔ a.toNat > b.toNat := decide_eq_true_iff

theorem subnFlag_iff (a b : Byte) : subnFlag a b = true ↔ b.toNat ≥ a.toNat := decide_eq_true_iff

theorem shrFlag_toNat (a : Byte) : (shrFlag a).toNat = a.toNat % 2 := by
  rw [shrFlag, BitVec.getLsbD, Nat.toNat_testBit, pow_zero, Nat.div_one]

/-- Bit 7 is the highest of the byte, so the quotient needs no remainder. -/
theorem shlFlag_toNat (a : Byte) : (shlFlag a).toNat = a.toNat / 128 := by
  rw [shlFlag, BitVec.getLsbD, Nat.toNat_testBit]
  have ha := a.isLt
  omega

/-! ## Byte results as numbers (R70 a) -/

theorem byte_sub_toNat (a b : Byte) : (a - b).toNat = (a.toNat + 256 - b.toNat) % 256 := by
  rw [BitVec.toNat_sub]
  have hb := b.isLt
  omega

theorem byte_shiftLeft_one_toNat (a : Byte) : (a <<< 1).toNat = a.toNat * 2 % 256 := by
  rw [BitVec.toNat_shiftLeft, Nat.shiftLeft_eq, pow_one]

theorem byte_ushiftRight_one_toNat (a : Byte) : (a >>> 1).toNat = a.toNat / 2 := by
  rw [BitVec.toNat_ushiftRight, Nat.shiftRight_eq_div_pow, pow_one]

/-- Bytes that sum to 256 are each other's negatives. -/
theorem byte_add_eq_zero (b c : Byte) (h : b.toNat + c.toNat = 256) : b + c = 0 := by
  apply BitVec.eq_of_toNat_eq
  rw [BitVec.toNat_add, h]
  rfl

/-! ## The instructions that leave the flag register alone (R71 to R76) -/

/-- Settles O25: both write `V[x]` alone. -/
theorem immediateLoadAndAdd : Obligations.ImmediateLoadAndAdd := by
  unfold Obligations.ImmediateLoadAndAdd
  intro s x nn
  refine ⟨completesWith_finishReg rfl fun _ => .intro,
    completesWith_finishReg rfl fun t hpc hx => ⟨hpc, ?_⟩⟩
  rw [hx]
  exact BitVec.toNat_add _ _

/-- Settles O27: all four write `V[x]` alone. -/
theorem copyAndLogicWriteTheDestinationOnly : Obligations.CopyAndLogicWriteTheDestinationOnly := by
  unfold Obligations.CopyAndLogicWriteTheDestinationOnly
  intro s x y
  exact ⟨completesWith_finishReg rfl fun _ => .intro, completesWith_finishReg rfl fun _ => .intro,
    completesWith_finishReg rfl fun _ => .intro, completesWith_finishReg rfl fun _ => .intro⟩

theorem exec_addImm (s : State) (x : RegNum) (b : Byte) :
    exec (.addImm x b) s = .next ((s.setReg x (s.reg x + b)).advance.report .ok) := rfl

/-- Settles O26: in `V[x]` the two bytes cancel. -/
theorem addImmediateWrapsAround : Obligations.AddImmediateWrapsAround := by
  unfold Obligations.AddImmediateWrapsAround
  intro s x b c hbc
  refine ⟨_, exec_addImm s x b, _, exec_addImm _ x c, fun k => ?_, ?_⟩
  · simp only [report_reg, advance_reg]
    by_cases hk : k = x
    · subst hk
      simp [BitVec.add_assoc, byte_add_eq_zero b c hbc]
    · simp [setReg_reg_ne _ _ _ _ hk]
  · exact BitVec.add_assoc s.pc 2 2

/-! ## The instructions that write the flag register (R77 to R81) -/

/-- Settles O28: the flag is the carry of the two registers as they were. -/
theorem addRegistersReportsCarry : Obligations.AddRegistersReportsCarry := by
  unfold Obligations.AddRegistersReportsCarry
  intro s x y
  exact completesWith_finishRegFlag rfl (BitVec.toNat_add _ _) fun t hpc hx hf =>
    ⟨hpc, hx, hf.trans (flagByte_eq_ite (carryFlag_iff _ _))⟩

/-- Settles O29: SUB's flag tests strictly, SUBN's does not. -/
theorem subtractionFlagsDifferOnEquality : Obligations.SubtractionFlagsDifferOnEquality := by
  unfold Obligations.SubtractionFlagsDifferOnEquality
  intro s x y
  constructor
  · exact completesWith_finishRegFlag rfl (byte_sub_toNat _ _) fun t hpc hx hf =>
      ⟨hpc, hx, hf.trans (flagByte_eq_ite (subFlag_iff _ _))⟩
  · exact completesWith_finishRegFlag rfl (byte_sub_toNat _ _) fun t hpc hx hf =>
      ⟨hpc, hx, hf.trans (flagByte_eq_ite (subnFlag_iff _ _))⟩

/-- Settles O30: the flag is the bit of `V[x]` as it was. -/
theorem shiftsReportTheBitShiftedOut : Obligations.ShiftsReportTheBitShiftedOut := by
  unfold Obligations.ShiftsReportTheBitShiftedOut
  intro s x
  constructor
  · refine completesWith_finishRegFlag rfl (byte_ushiftRight_one_toNat _) fun t hpc hx hf =>
      ⟨hpc, hx, ?_⟩
    rw [hf, flagByte_toNat, shrFlag_toNat]
  · refine completesWith_finishRegFlag rfl (byte_shiftLeft_one_toNat _) fun t hpc hx hf =>
      ⟨hpc, hx, ?_⟩
    rw [hf, flagByte_toNat, shlFlag_toNat]

/-! ## Random bytes (R82) -/

theorem exec_rnd (s : State) (x : RegNum) (nn : Byte) :
    exec (.rnd x nn) s = .next
      (((s.nextDraw.setReg x (Config.randomByte s.draws &&& nn)).setPc (s.pc + 2)).report .ok) := rfl

theorem sameBut_nextDraw (s : State) : SameBut [.draws] s s.nextDraw := by
  intro p hp
  have hrefl : Unchanged s s p := .refl s p
  cases p with
  | draws => exact absurd (List.mem_singleton_self _) hp
  | _ => exact hrefl

theorem byte_and_and_not_self (a m : Byte) : a &&& m &&& ~~~m = 0 := by
  rw [BitVec.and_assoc, BitVec.and_not_self]
  exact BitVec.and_zero

/-- Settles O31: whatever the free byte is, it is under the mask. -/
theorem randomByteUnderMask : Obligations.RandomByteUnderMask := by
  unfold Obligations.RandomByteUnderMask
  intro s x nn
  have hx : (s.nextDraw.setReg x (Config.randomByte s.draws &&& nn)).reg x =
      Config.randomByte s.draws &&& nn := setReg_reg_same _ _ _
  refine .of_setPc (exec_rnd s x nn) (regsBut_setReg s.nextDraw x _)
    ((sameBut_nextDraw s).setReg x _) ⟨rfl, hx, ?_, rfl⟩
  rw [report_reg, setPc_reg, hx]
  exact byte_and_and_not_self _ nn

end Sys2Proof.Machine

/-! SUPPORT. Index register and memory (`42_index_memory.md`): the frame of an instruction that writes
`I`, of one that stores bytes at `I`, and of one that loads a block of registers from there. -/

namespace Sys2Proof.Machine

open State

/-! ## The index register (R87 to R89) -/

theorem sameBut_setIndex (s : State) (w : Word) : SameBut [.index] s (s.setIndex w) := by
  intro p hp
  have hrefl : Unchanged s s p := .refl s p
  cases p with
  | index => exact absurd (List.mem_singleton_self _) hp
  | _ => exact hrefl

/-- An instruction that writes a word of value `n` to `I` and nothing else. -/
theorem completesWith_setIndex {i : Instr} {s : State} {w : Word} {n : Nat}
    (he : exec i s = finish (s.setIndex w).advance) (hn : w.toNat = n) :
    CompletesWith i s [] [.index] (fun t => t.pc = s.pc + 2 ∧ t.i.toNat = n) :=
  .of_setPc he (fun _ _ => rfl) (sameBut_setIndex s w) ⟨rfl, hn⟩

/-- A glyph's address fits in `I`: five times a byte is at most 1275. -/
theorem glyphAddress_toNat (b : Byte) : (glyphAddress b).toNat = b.toNat * 5 := by
  have hb : b.toNat < 256 := b.isLt
  rw [glyphAddress, BitVec.toNat_mul, byteWord_toNat]
  show b.toNat * 5 % 65536 = b.toNat * 5
  omega

/-- Settles O32: the zero-extended address as a number. -/
theorem loadIndexZeroExtends : Obligations.LoadIndexZeroExtends := by
  unfold Obligations.LoadIndexZeroExtends
  intro s a
  exact completesWith_setIndex rfl (addrWord_toNat a)

/-- Settles O33: the sum and the product as numbers. -/
theorem indexArithmeticIsUnmasked : Obligations.IndexArithmeticIsUnmasked := by
  unfold Obligations.IndexArithmeticIsUnmasked
  intro s x
  refine ⟨completesWith_setIndex rfl ?_, completesWith_setIndex rfl (glyphAddress_toNat _)⟩
  rw [BitVec.toNat_add, byteWord_toNat]

/-! ## Stores at `I` (R90, R91) -/

theorem sameBut_setMem (s : State) (m : Memory) : SameBut [.memory] s (s.setMem m) := by
  intro p hp
  have hrefl : Unchanged s s p := .refl s p
  cases p with
  | memory => exact absurd (List.mem_singleton_self _) hp
  | _ => exact hrefl

section Store

variable {i : Instr} {s : State} {bs : List Byte} {n : Nat}
  (he : exec i s = storeBytes s.indexAddress bs s fun t => finish t.advance)
  (hlen : bs.length = n + 1)

include he hlen

/-- An instruction that stores bytes from `I` to `I + n`, inside memory, and writes nothing else. -/
theorem completesWith_storeBytes {P : State → Prop} (hlt : s.i.toNat + n < 4096)
    (hP : ∀ t : State, t.pc = s.pc + 2 → Stored s.i.toNat bs s.mem t.mem →
      (∀ a, a < s.i.toNat ∨ s.i.toNat + n < a → t.readByte a = s.readByte a) → P t) :
    CompletesWith i s [] [.memory] P := by
  obtain ⟨m, hst, hstore⟩ := storeBytes_inside s.i.toNat bs s (fun t => finish t.advance)
    (by rw [hlen]; exact hlt)
  have hframe : ∀ a, a < s.i.toNat ∨ s.i.toNat + n < a → m.read a = s.mem.read a :=
    fun a ha => hst.outside a (by rw [hlen]; exact ha)
  exact .of_setPc (he.trans hstore) (fun _ _ => rfl) (sameBut_setMem s m) (hP _ rfl hst hframe)

/-- The same instruction with `I + n` outside memory. -/
theorem failsWith_storeBytes (hge : 4096 ≤ s.i.toNat + n) :
    FailsWith i s (.outOfBounds (s.i.toNat + n)) := by
  have hout := storeBytes_outside s.i.toNat bs s (fun t => finish t.advance)
    (by rw [hlen]; exact n.succ_pos) (by rw [hlen]; exact Nat.lt_succ_of_le hge)
  rw [hlen] at hout
  exact he.trans hout

end Store

/-- Each digit fits in a byte. -/
theorem bcdDigits_map_toNat (b : Byte) :
    (bcdDigits b).map BitVec.toNat = [b.toNat / 100, b.toNat / 10 % 10, b.toNat % 10] := by
  have hb : b.toNat < 256 := b.isLt
  have hfit (d : Nat) (hd : d < 256) : (BitVec.ofNat 8 d).toNat = d :=
    Nat.mod_eq_of_lt hd
  simp only [bcdDigits, List.map_cons, List.map_nil]
  rw [hfit _ (by omega), hfit _ (by omega), hfit _ (by omega)]

/-- Settles O34: the three bytes stored are the three digits. -/
theorem bcdStoresThreeDigits : Obligations.BcdStoresThreeDigits := by
  unfold Obligations.BcdStoresThreeDigits
  intro s x
  have hlen : (bcdDigits (s.reg x)).length = 2 + 1 := rfl
  refine ⟨fun hw hlt => ?_, failsWith_storeBytes rfl hlen⟩
  refine completesWith_storeBytes rfl hlen hlt fun t hpc hst hframe => ?_
  have hdigit (k : Nat) (hk : k < 3) : (t.readByte (s.i.toNat + k)).toNat =
      [(s.reg x).toNat / 100, (s.reg x).toNat / 10 % 10, (s.reg x).toNat % 10][k] := by
    have hin : k < (bcdDigits (s.reg x)).length := hk
    simp only [readByte, hst.inside hw k hin, ← bcdDigits_map_toNat, List.getElem_map]
  exact ⟨hpc, hdigit 0 (by decide), hdigit 1 (by decide), hdigit 2 (by decide), hframe⟩

/-- Settles O35: the bytes stored are the registers up to `V[x]`. -/
theorem registerDumpStoresUpToX : Obligations.RegisterDumpStoresUpToX := by
  unfold Obligations.RegisterDumpStoresUpToX
  intro s x
  refine ⟨fun hw hlt => ?_, failsWith_storeBytes rfl (regsUpTo_length s x)⟩
  exact completesWith_storeBytes rfl (regsUpTo_length s x) hlt
    fun t hpc hst hframe => ⟨hpc, hst.read_reg hw, hframe⟩

/-! ## The register load (R92) -/

/-- No frame speaks of the registers. -/
theorem sameBut_setRegs (s : State) (v : Vector Byte 16) : SameBut [] s { s with v := v } := by
  intro p _
  have hrefl : Unchanged s s p := .refl s p
  cases p <;> exact hrefl

/-- Loading the bytes from `a` on into `V[0]` to `V[x]`. -/
theorem setRegsFrom_zero_reg (a : Nat) (s : State) (x k : RegNum) :
    (setRegsFrom 0 ((List.range' a (x.val + 1)).map s.readByte) s).reg k =
      if k ≤ x then s.readByte (a + k.val) else s.reg k := by
  have hfit : 0 + ((List.range' a (x.val + 1)).map s.readByte).length ≤ 16 := by
    rw [List.length_map, List.length_range']
    omega
  rw [setRegsFrom_reg 0 _ s hfit k]
  by_cases hk : k ≤ x
  · simp [hk]
  · simp [hk]

/-- LD Vx,[I] inside memory completes with the registers up to `V[x]` read from `I` on. -/
theorem exec_loadRegs_inside (s : State) (x : RegNum) (hlt : s.i.toNat + x.val < 4096) :
    ∃ v, exec (.loadRegs x) s = .next (({ s with v := v }.setPc (s.pc + 2)).report .ok) ∧
      ∀ k : RegNum, { s with v := v }.reg k =
        if k ≤ x then s.readByte (s.i.toNat + k.val) else s.reg k := by
  obtain ⟨v, hv⟩ := setRegsFrom_eq 0 ((List.range' s.i.toNat (x.val + 1)).map s.readByte) s
  have hload : exec (.loadRegs x) s = finish (setRegsFrom 0 _ s).advance :=
    loadBytes_inside s.i.toNat (x.val + 1) s _ (.inr hlt)
  refine ⟨v, ?_, fun k => ?_⟩
  · rw [hload, hv]
    rfl
  · rw [← hv, setRegsFrom_zero_reg]

/-- Settles O36: the two answers of the load. -/
theorem registerLoadFillsUpToX : Obligations.RegisterLoadFillsUpToX := by
  unfold Obligations.RegisterLoadFillsUpToX
  intro s x
  refine ⟨fun hlt => ?_, fun hge => ?_⟩
  · obtain ⟨v, he, hregs⟩ := exec_loadRegs_inside s x hlt
    exact ⟨_, he, rfl, (sameBut_setRegs s v).setPc_report _ .ok, rfl, hregs⟩
  · exact loadBytes_outside s.i.toNat (x.val + 1) s _ x.val.succ_pos (Nat.lt_succ_of_le hge)

/-- Settles O37: the load reads each register's byte where the dump stored it. -/
theorem loadBringsBackWhatDumpStored : Obligations.LoadBringsBackWhatDumpStored := by
  unfold Obligations.LoadBringsBackWhatDumpStored
  intro s x hw hlt
  obtain ⟨m, hst, hdump⟩ := exec_storeRegs_inside s x hlt
  refine ⟨_, hdump, fun u hmem hi => ?_⟩
  obtain ⟨v, hload, hregs⟩ := exec_loadRegs_inside u x (by rwa [hi])
  refine ⟨_, hload, rfl, fun k hk => ?_⟩
  calc { u with v := v }.reg k
      = u.mem.read (u.i.toNat + k.val) := by rw [hregs, if_pos hk, readByte]
    _ = m.read (s.i.toNat + k.val) := by rw [hmem, hi]; rfl
    _ = s.reg k := hst.read_reg hw k hk

end Sys2Proof.Machine

/-! SUPPORT. Display (`43_display.md`): the frame of an instruction that writes the screen, the pixels
a sprite's 1 bits fall on, and what a draw answers inside and outside memory. -/

namespace Sys2Proof.Machine

open State

/-! ## The frame of a screen write -/

theorem sameBut_screen (s : State) (fb : Framebuffer) :
    SameBut [.framebuffer, .dirty] s ((s.setFb fb).setDirty true) := by
  intro p hp
  have hrefl : Unchanged s s p := .refl s p
  cases p with
  | framebuffer | dirty => exact absurd (by decide) hp
  | _ => exact hrefl

theorem exec_cls (s : State) : exec .cls s =
    .next ((((s.setFb blankScreen).setDirty true).setPc (s.pc + 2)).report .ok) := rfl

/-- Settles O39: every pixel of the blank screen is clear. -/
theorem clearScreenClearsEveryPixel : Obligations.ClearScreenClearsEveryPixel := by
  unfold Obligations.ClearScreenClearsEveryPixel
  intro s
  exact .of_setPc (exec_cls s) (fun _ _ => rfl) (sameBut_screen s _)
    ⟨rfl, rfl, blankScreen_pixel s⟩

/-! ## The sprite's 1 bits (R94) -/

theorem rowCovers_iff (b : Byte) (ox : Nat) (px : Fin 64) :
    rowCovers b ox px = true ↔
      ∃ c, c < 8 ∧ b.getLsbD (7 - c) = true ∧ px.val = (ox + c) % 64 := by
  have hpx := px.isLt
  rw [rowCovers, Bool.and_eq_true, decide_eq_true_eq]
  constructor
  · rintro ⟨h8, hb⟩
    exact ⟨_, h8, hb, by omega⟩
  · rintro ⟨c, h8, hb, hc⟩
    have hcol : (px.val + 64 - ox % 64) % 64 = c := by omega
    rw [hcol]
    exact ⟨h8, hb⟩

/-- A sprite is shorter than the screen, so the row of it that falls on `py` is the only one. -/
theorem spriteCovers_iff (bs : List Byte) (ox oy : Nat) (h : bs.length < 32) (px : Fin 64)
    (py : Fin 32) :
    spriteCovers bs ox oy px py = true ↔
      ∃ r, ∃ hr : r < bs.length, rowCovers bs[r] ox px = true ∧ py.val = (oy + r) % 32 := by
  have hpy := py.isLt
  constructor
  · intro hc
    unfold spriteCovers at hc
    split at hc
    · rename_i b hb
      obtain ⟨hr, rfl⟩ := List.getElem?_eq_some_iff.mp hb
      exact ⟨_, hr, hc, by omega⟩
    · cases hc
  · rintro ⟨r, hr, hc, hy⟩
    have hrow : (py.val + 32 - oy % 32) % 32 = r := by omega
    rw [spriteCovers, hrow, List.getElem?_eq_getElem hr]
    exact hc

/-- The rows of the sprite at `I`. -/
def spriteRows (s : State) (n : Fin 16) : List Byte :=
  (List.range' s.i.toNat n.val).map s.readByte

@[simp] theorem spriteRows_length (s : State) (n : Fin 16) : (spriteRows s n).length = n.val := by
  simp [spriteRows]

theorem spriteRows_length_lt (s : State) (n : Fin 16) : (spriteRows s n).length < 32 := by
  rw [spriteRows_length]
  omega

theorem spriteRows_getElem (s : State) (n : Fin 16) (r : Nat) (hr : r < (spriteRows s n).length) :
    (spriteRows s n)[r] = s.readByte (s.i.toNat + r) := by
  simp [spriteRows]

/-- What the model's loops cover is what the rule says the sprite hits. -/
theorem spriteCovers_spriteRows_iff (s : State) (x y : RegNum) (n : Fin 16) (px : Fin 64)
    (py : Fin 32) :
    spriteCovers (spriteRows s n) ((s.reg x).toNat % 64) ((s.reg y).toNat % 32) px py = true ↔
      SpriteHits s x y n px py := by
  rw [spriteCovers_iff _ _ _ (spriteRows_length_lt s n)]
  simp only [spriteRows_getElem, rowCovers_iff]
  constructor
  · rintro ⟨r, hr, ⟨c, hc, hbit, hx⟩, hy⟩
    exact ⟨r, c, spriteRows_length s n ▸ hr, hc, hbit, hx, hy⟩
  · rintro ⟨r, c, hr, hc, hbit, hx, hy⟩
    exact ⟨r, (spriteRows_length s n).symm ▸ hr, ⟨c, hc, hbit, hx⟩, hy⟩

/-! ## What a draw answers (R96) -/

/-- The canvas is the screen of `s` with the sprite of DRW Vx,Vy,N drawn on it. -/
structure Drawn (s : State) (x y : RegNum) (n : Fin 16) (c : Canvas) : Prop where
  flipped : ∀ px py, SpriteHits s x y n px py → c.pixel px py = !s.pixel px py
  kept : ∀ px py, ¬ SpriteHits s x y n px py → c.pixel px py = s.pixel px py
  collision : c.collision = true ↔ ∃ px py, SpriteHits s x y n px py ∧ s.pixel px py = true

theorem drawn_drawRows (s : State) (x y : RegNum) (n : Fin 16) :
    Drawn s x y n (Canvas.drawRows ((s.reg x).toNat % 64) ((s.reg y).toNat % 32) (spriteRows s n)
      ⟨s.fb, false⟩) := by
  have hpixel := Canvas.drawRows_pixel ((s.reg x).toNat % 64) ((s.reg y).toNat % 32)
    (spriteRows s n) ⟨s.fb, false⟩ (spriteRows_length_lt s n)
  refine ⟨fun px py hit => ?_, fun px py miss => ?_, ?_⟩
  · rw [hpixel, (spriteCovers_spriteRows_iff s x y n px py).mpr hit]
    exact Bool.xor_true _
  · rw [← spriteCovers_spriteRows_iff, Bool.not_eq_true] at miss
    rw [hpixel, miss]
    exact Bool.xor_false _
  · rw [Canvas.drawRows_collision _ _ _ _ (spriteRows_length_lt s n)]
    simp only [spriteCovers_spriteRows_iff, Bool.false_eq_true, false_or]
    rfl

/-- The state a draw that completes leaves, the canvas drawn being `c`. -/
def afterDraw (s : State) (c : Canvas) : State :=
  ((s.setFb c.fb).setDirty true).setFlag c.collision

theorem afterDraw_pixel (s : State) (c : Canvas) (px : Fin 64) (py : Fin 32) :
    (afterDraw s c).pixel px py = c.pixel px py := rfl

theorem afterDraw_reg_flag (s : State) (c : Canvas) :
    (afterDraw s c).reg flagReg = flagByte c.collision := setFlag_reg_flag _ _

theorem afterDraw_reg_ne (s : State) (c : Canvas) (k : RegNum) (h : k ≠ flagReg) :
    (afterDraw s c).reg k = s.reg k := setFlag_reg_ne _ _ k h

/-- With every row inside memory, or no row, the sprite is drawn. -/
theorem exec_drw_inside (s : State) (x y : RegNum) (n : Fin 16)
    (h : n.val = 0 ∨ s.i.toNat + n.val - 1 < 4096) :
    ∃ c, Drawn s x y n c ∧
      exec (.drw x y n) s = .next (((afterDraw s c).setPc (s.pc + 2)).report .ok) :=
  ⟨_, drawn_drawRows s x y n, loadBytes_inside s.i.toNat n.val s _ (by omega)⟩

theorem exec_drw_outside (s : State) (x y : RegNum) (n : Fin 16) (hn : n.val ≠ 0)
    (h : 4096 ≤ s.i.toNat + n.val - 1) :
    exec (.drw x y n) s = .next (s.report (.error (.outOfBounds (s.i.toNat + n.val - 1)))) :=
  loadBytes_outside s.i.toNat n.val s _ (by omega) (by omega)

theorem flagByte_of_iff {c : Bool} {q : Prop} (h : c = true ↔ q) :
    (q → flagByte c = 0x01) ∧ (¬ q → flagByte c = 0x00) := by
  classical
  rw [flagByte_eq_ite h]
  exact ⟨fun hq => if_pos hq, fun hq => if_neg hq⟩

/-- Settles O40: the two answers of a draw. -/
theorem drawFlipsExactlyTheSpritePixels : Obligations.DrawFlipsExactlyTheSpritePixels := by
  unfold Obligations.DrawFlipsExactlyTheSpritePixels
  intro s x y n
  refine ⟨fun h => ?_, exec_drw_outside s x y n⟩
  obtain ⟨c, hc, he⟩ := exec_drw_inside s x y n h
  refine .of_setPc he (fun k hk => afterDraw_reg_ne s c k (List.ne_of_not_mem_cons hk))
    ((sameBut_screen s c.fb).setReg flagReg _) ⟨rfl, rfl, hc.flipped, hc.kept, ?_⟩
  rw [report_reg, setPc_reg, afterDraw_reg_flag]
  exact flagByte_of_iff hc.collision

/-! ## Drawing twice -/

/-- The pixels a sprite hits depend on the two registers, on `I` and on memory alone. -/
theorem spriteHits_congr {s t : State} {x y : RegNum} (hx : t.reg x = s.reg x)
    (hy : t.reg y = s.reg y) (hi : t.i = s.i) (hm : t.mem = s.mem) (n : Fin 16) (px : Fin 64)
    (py : Fin 32) : SpriteHits t x y n px py ↔ SpriteHits s x y n px py := by
  simp only [SpriteHits, readByte, hx, hy, hi, hm]

/-- The same sprite drawn on a screen and then on the result: each pixel hit is flipped twice, and
the second draw finds set what the first found clear. -/
theorem Drawn.twice {s t : State} {x y : RegNum} {n : Fin 16} {c d : Canvas}
    (hc : Drawn s x y n c) (hd : Drawn t x y n d) (hpix : ∀ px py, t.pixel px py = c.pixel px py)
    (hits : ∀ px py, SpriteHits t x y n px py ↔ SpriteHits s x y n px py) :
    (∀ px py, d.pixel px py = s.pixel px py) ∧
      (d.collision = true ↔ ∃ px py, SpriteHits s x y n px py ∧ s.pixel px py = false) := by
  constructor
  · intro px py
    by_cases hit : SpriteHits s x y n px py
    · rw [hd.flipped px py ((hits px py).mpr hit), hpix, hc.flipped px py hit, Bool.not_not]
    · rw [hd.kept px py (hit ∘ (hits px py).mp), hpix, hc.kept px py hit]
  · rw [hd.collision]
    refine exists_congr fun px => exists_congr fun py => ?_
    rw [hits, hpix]
    refine and_congr_right fun hit => ?_
    rw [hc.flipped px py hit, Bool.not_eq_true']

/-- Settles O41: the first draw leaves the two registers, `I` and memory, so the second draws the
same sprite. -/
theorem drawingTwiceRestoresTheScreen : Obligations.DrawingTwiceRestoresTheScreen := by
  unfold Obligations.DrawingTwiceRestoresTheScreen
  intro s x y n hx hy h
  obtain ⟨c, hc, hfirst⟩ := exec_drw_inside s x y n h
  refine ⟨_, hfirst, ?_⟩
  obtain ⟨d, hd, hsecond⟩ :=
    exec_drw_inside (((afterDraw s c).setPc (s.pc + 2)).report .ok) x y n h
  refine ⟨_, hsecond, rfl, ?_⟩
  obtain ⟨hpixels, hcollision⟩ := hc.twice hd (afterDraw_pixel s c) (spriteHits_congr
    (afterDraw_reg_ne s c x hx) (afterDraw_reg_ne s c y hy) rfl rfl n)
  refine ⟨hpixels, ?_⟩
  rw [report_reg, setPc_reg, afterDraw_reg_flag]
  exact flagByte_of_iff hcollision

end Sys2Proof.Machine

/-! SUPPORT. Keypad and timers (`44_keypad_timer.md`): what a step does once its word is decoded, the
key LD Vx,K finds, and the frame of a timer write. -/

namespace Sys2Proof.Machine

open State

/-! ## The decoded word of a step (`60_exceptions.md` R131) -/

theorem step_of_runs {s : State} {i : Instr} (h : Runs s i) : step s = exec i s := by
  obtain ⟨hf, hd⟩ := h
  calc step s = runWord s.fetchedWord s := fetchThen_inside s _ hf
    _ = exec i s := by rw [runWord, hd]

theorem step_of_unknown {s : State} {w : Word} (hf : s.canFetch)
    (hd : decode s.params.hasSoundTimer s.fetchedWord = .unknown w) : step s = raiseUnknown w s := by
  calc step s = runWord s.fetchedWord s := fetchThen_inside s _ hf
    _ = raiseUnknown w s := by rw [runWord, hd]

/-! ## Waiting for a key (R100) -/

theorem exec_ldVxK_released (s : State) (x : RegNum) (h : ∀ k : Fin 16, s.key[k] = false) :
    exec (.ldVxK x) s = .next (s.report .ok) := by
  simp only [exec, execLdVxK, (lowestPressed_none s).mpr h, finish_eq]

theorem lowestPressed_eq_some {s : State} {k : Fin 16} (hk : s.key[k] = true)
    (hlow : ∀ j : Fin 16, j < k → s.key[j] = false) : s.lowestPressed = some k := by
  cases hp : s.lowestPressed with
  | none =>
    have hreleased : s.key[k] = false := (lowestPressed_none s).mp hp k
    rw [hk] at hreleased
    cases hreleased
  | some j =>
    obtain ⟨hj, hbelow⟩ := lowestPressed_some s j hp
    rcases lt_trichotomy j k with hlt | rfl | hgt
    · simp [hlow j hlt] at hj
    · rfl
    · simp [hbelow k hgt] at hk

theorem exec_ldVxK_pressed (s : State) (x : RegNum) (k : Fin 16) (hk : s.key[k] = true)
    (hlow : ∀ j : Fin 16, j < k → s.key[j] = false) :
    exec (.ldVxK x) s = finishReg x (BitVec.ofNat 8 k.val) s := by
  simp only [exec, execLdVxK, lowestPressed_eq_some hk hlow, finishReg]

/-- A key number is its own value as a byte. -/
theorem keyByte_toNat (k : Fin 16) : (BitVec.ofNat 8 k.val).toNat = k.val := by
  rw [BitVec.toNat_ofNat]
  omega

theorem report_ok_of_outcome {s : State} (h : s.outcome = .ok) : s.report .ok = s := by
  rw [report, ← h]

/-- Where a step answers the state itself, not ended, so does any number of steps. -/
theorem runSteps_fixed {s : State} (hstep : step s = .next s) (hok : s.outcome = .ok) (n : Nat) :
    runSteps n s = s := by
  have hgoing : s.ended = false := by simp [ended, hok]
  induction n with
  | zero => rfl
  | succ n ih => simp [runSteps, hstep, hgoing, ih]

/-- Settles O44: the step that waits answers the state it started from. -/
theorem waitForKeyHoldsAcrossSteps : Obligations.WaitForKeyHoldsAcrossSteps := by
  unfold Obligations.WaitForKeyHoldsAcrossSteps
  intro s x n hruns hkeys hok
  have hstep : step s = .next s := by
    rw [step_of_runs hruns, exec_ldVxK_released s x hkeys, report_ok_of_outcome hok]
  exact runSteps_fixed hstep hok n

/-- Settles O43: the scan finds the lowest pressed key, or none. -/
theorem waitForKeyReportsTheLowest : Obligations.WaitForKeyReportsTheLowest := by
  unfold Obligations.WaitForKeyReportsTheLowest
  intro s x
  refine ⟨fun k hk hlow => ?_, exec_ldVxK_released s x⟩
  refine completesWith_finishReg (exec_ldVxK_pressed s x k hk hlow) fun t hpc hx => ⟨hpc, ?_⟩
  rw [hx, keyByte_toNat]

/-! ## Key tests (R98, R99) -/

/-- With `V[x]` the number of a latch, a key test goes on with that latch. -/
theorem withKey_latch {s : State} {b : Byte} {k : Fin 16} (h : b.toNat = k.val)
    (f : Bool → Result) : withKey b s f = f s.key[k] := by
  rw [withKey_in b s f (h ▸ k.isLt)]
  simp only [h, Fin.getElem_fin]

theorem exec_skp (s : State) (x : RegNum) :
    exec (.skp x) s = withKey (s.reg x) s fun pressed => finish (s.skipIf pressed) := rfl

theorem exec_sknp (s : State) (x : RegNum) :
    exec (.sknp x) s = withKey (s.reg x) s fun pressed => finish (s.skipIf !pressed) := rfl

/-- Settles O42: the latch is tested for pressed and for released, or there is none to test. -/
theorem keySkipsTestTheLatch : Obligations.KeySkipsTestTheLatch := by
  unfold Obligations.KeySkipsTestTheLatch
  intro s x
  refine ⟨fun k hk => ⟨?_, ?_⟩, fun hout => ⟨?_, ?_⟩⟩
  · exact completesWith_skipIf ((exec_skp s x).trans (withKey_latch hk _)) Iff.rfl
  · exact completesWith_skipIf ((exec_sknp s x).trans (withKey_latch hk _)) (by rw [Bool.not_eq_true'])
  · exact (exec_skp s x).trans (withKey_out (s.reg x) s _ hout)
  · exact (exec_sknp s x).trans (withKey_out (s.reg x) s _ hout)

/-! ## The timers (R101 to R103) -/

theorem sameBut_setDelay (s : State) (b : Byte) : SameBut [.delayTimer] s (s.setDelay b) := by
  intro p hp
  have hrefl : Unchanged s s p := .refl s p
  cases p with
  | delayTimer => exact absurd (List.mem_singleton_self _) hp
  | _ => exact hrefl

theorem sameBut_setSound (s : State) (b : Byte) : SameBut [.soundTimer] s (s.setSound b) := by
  intro p hp
  have hrefl : Unchanged s s p := .refl s p
  cases p with
  | soundTimer => exact absurd (List.mem_singleton_self _) hp
  | _ => exact hrefl

theorem exec_ldDTVx (s : State) (x : RegNum) : exec (.ldDTVx x) s =
    .next (((s.setDelay (s.reg x)).setPc (s.pc + 2)).report .ok) := rfl

theorem exec_ldSTVx_fitted (s : State) (x : RegNum) (h : s.params.hasSoundTimer = true) :
    exec (.ldSTVx x) s = .next (((s.setSound (s.reg x)).setPc (s.pc + 2)).report .ok) :=
  if_pos h

/-- Without the sound timer FX18 is unknown (`30_encoding.md` R53). -/
theorem decode_false_encode_ldSTVx (x : RegNum) :
    decode false (encode (.ldSTVx x)) = .unknown (encode (.ldSTVx x)) := by
  simp [encode, decode, decodeClassF]

/-- Settles O45: a register write and a timer write. -/
theorem delayTimerIsReadAndWritten : Obligations.DelayTimerIsReadAndWritten := by
  unfold Obligations.DelayTimerIsReadAndWritten
  intro s x
  exact ⟨completesWith_finishReg rfl fun _ => .intro,
    .of_setPc (exec_ldDTVx s x) (fun _ _ => rfl) (sameBut_setDelay s _) ⟨rfl, rfl⟩⟩

/-- Settles O46: the timer write, and the unknown word under abort. -/
theorem soundTimerOnlyWhereFitted : Obligations.SoundTimerOnlyWhereFitted := by
  unfold Obligations.SoundTimerOnlyWhereFitted
  refine ⟨fun s x hst => ?_, fun s x hst hpolicy hf hw => ?_⟩
  · exact .of_setPc (exec_ldSTVx_fitted s x hst) (fun _ _ => rfl) (sameBut_setSound s _) ⟨rfl, rfl⟩
  · have hd : decode s.params.hasSoundTimer s.fetchedWord = .unknown (encode (.ldSTVx x)) := by
      rw [hst, hw, decode_false_encode_ldSTVx]
    rw [step_of_unknown hf hd, raiseUnknown_abort _ s hpolicy]

end Sys2Proof.Machine

/-! SUPPORT. System instructions (`45_system.md`): the frame of a mode switch, and EXIT's. -/

namespace Sys2Proof.Machine

open State

/-! ## The mode switches (R106, R107) -/

theorem sameBut_setMode (s : State) (m : Mode) : SameBut [.mode] s (s.setMode m) := by
  intro p hp
  have hrefl : Unchanged s s p := .refl s p
  cases p with
  | mode => exact absurd (List.mem_singleton_self _) hp
  | _ => exact hrefl

theorem exec_low (s : State) :
    exec .low s = .next (((s.setMode .standard).setPc (s.pc + 2)).report .ok) := rfl

theorem exec_high (s : State) :
    exec .high s = .next (((s.setMode .extended).setPc (s.pc + 2)).report .ok) := rfl

/-- An instruction that writes the mode tag and goes on at `pc + 2`. -/
theorem completesWith_setMode {i : Instr} {s : State} {m : Mode}
    (he : exec i s = .next (((s.setMode m).setPc (s.pc + 2)).report .ok)) :
    CompletesWith i s [] [.mode] (fun t => t.pc = s.pc + 2 ∧ t.mode = m) :=
  .of_setPc he (fun _ _ => rfl) (sameBut_setMode s m) ⟨rfl, rfl⟩

/-- Settles O47: both instructions are a write of the mode tag. -/
theorem modeSwitchesSetTheTagOnly : Obligations.ModeSwitchesSetTheTagOnly := by
  unfold Obligations.ModeSwitchesSetTheTagOnly
  intro s
  exact ⟨completesWith_setMode (exec_low s), completesWith_setMode (exec_high s)⟩

/-! ## EXIT (R108) -/

theorem exec_exit (s : State) : exec .exit s = .next (s.report .haltRequested) := rfl

/-- Handing an outcome to the host changes no piece of state: it is a `pc` write of `pc` itself. -/
theorem sameBut_report (s : State) (o : StepOutcome) : SameBut [] s (s.report o) :=
  (SameBut.refl [] s).setPc_report s.pc o

/-- Settles O48: EXIT only hands its outcome to the host. -/
theorem exitChangesNothing : Obligations.ExitChangesNothing := by
  unfold Obligations.ExitChangesNothing
  intro s
  exact ⟨s.report .haltRequested, exec_exit s, rfl, rfl, fun k _ => report_reg s _ k,
    sameBut_report s _⟩

end Sys2Proof.Machine

/-! SUPPORT. Outcomes and runs (`60_exceptions.md`): in which states a step ends in an error, when it
halts, what the host's operations leave alone, and how a run goes on and ends. -/

namespace Sys2Proof.Machine

open State

/-! ## One step (R131, R112) -/

/-- Settles O9: `step_agree` at the state itself; its first answer is a next state. -/
theorem stepAlwaysAnswersNext : Obligations.StepAlwaysAnswersNext := by
  unfold Obligations.StepAlwaysAnswersNext
  intro s
  obtain ⟨t, -, -, -, h, -⟩ := step_agree s s.st s.dirty s.mode s.outcome
  exact ⟨t, h⟩

theorem step_of_not_canFetch {s : State} (h : ¬ s.canFetch) :
    step s = .next (s.report (.error (.outOfBounds s.pc.toNat))) :=
  fetchThen_outside s _ h

/-- Settles O7: the fetch's two answers, and the decoder's. -/
theorem stepRunsTheDecodedInstruction : Obligations.StepRunsTheDecodedInstruction := by
  unfold Obligations.StepRunsTheDecodedInstruction
  intro s
  exact ⟨step_of_not_canFetch, fun i hr => ⟨step_of_runs hr, decode_wf _ _ _ hr.2⟩,
    composeWord_toNat _ _⟩

/-- Settles O8: the two answers of `raiseUnknown`. -/
theorem unknownOpcodeFollowsThePolicy : Obligations.UnknownOpcodeFollowsThePolicy := by
  unfold Obligations.UnknownOpcodeFollowsThePolicy
  intro s hf hd
  rw [step_of_unknown hf hd]
  exact ⟨raiseUnknown_abort _ s, raiseUnknown_skip _ s⟩

/-! ## Errors (R111 to R114, R117) -/

/-- The table's row gives one value. -/
theorem HandlerOutOfBounds.value_unique {s : State} {i : Instr} {a b : Nat}
    (ha : HandlerOutOfBounds s a i) (hb : HandlerOutOfBounds s b i) : a = b := by
  cases i with
  | drw x y n =>
    obtain ⟨-, -, rfl⟩ := ha
    exact hb.2.2.symm
  | ldB x | storeRegs x | loadRegs x | skp x | sknp x =>
    obtain ⟨-, rfl⟩ := ha
    exact hb.2.symm
  | _ => exact ha.elim

/-- Where the table's condition holds the instruction raises the table's error. -/
theorem exec_of_handlerOutOfBounds {s : State} {i : Instr} {a : Nat}
    (h : HandlerOutOfBounds s a i) : exec i s = .next (s.report (.error (.outOfBounds a))) := by
  obtain ⟨t, -, -, -, he, -⟩ := exec_agree s s.st s.dirty s.mode s.outcome i
  rcases exec_ends i s t he with ⟨b, hb, rfl⟩ | ⟨⟨_, rfl⟩, -, -⟩ | ⟨rfl, -, -⟩ | ⟨rfl, -⟩ |
    ⟨⟨_, rfl⟩, -, -⟩ | ⟨-, hnone, -⟩
  · rw [he, h.value_unique hb]
  · exact h.elim
  · exact h.elim
  · exact h.elim
  · exact h.elim
  · exact absurd h (hnone a)

/-- The next step from `s` ends in the error `e`: its fetch is outside memory, its word is unknown, or
the instruction it runs raises its error (`60_exceptions.md` R111 to R114). -/
inductive StepFails (s : State) : ErrorKind → Prop
  | fetch (h : ¬ s.canFetch) : StepFails s (.outOfBounds s.pc.toNat)
  | unknown (hf : s.canFetch)
      (hd : decode s.params.hasSoundTimer s.fetchedWord = .unknown s.fetchedWord) :
      StepFails s (.unknownOpcode s.fetchedWord)
  | handler (i : Instr) (a : Nat) (hr : Runs s i) (h : HandlerOutOfBounds s a i) :
      StepFails s (.outOfBounds a)
  | overflow (a : Addr12) (hr : Runs s (.call a)) (h : s.sp.val = 16) : StepFails s .stackOverflow
  | underflow (hr : Runs s .ret) (h : s.sp.val = 0) : StepFails s .stackUnderflow

/-- How a step can end: in an error, halted by EXIT, or with `Ok` from another instruction. -/
theorem step_ends {s t : State} (h : step s = .next t) :
    (∃ e, StepFails s e ∧ t.outcome = .error e) ∨ (Runs s .exit ∧ t = s.report .haltRequested) ∨
      (¬ Runs s .exit ∧ t.outcome = .ok) := by
  rcases step_inv s t h with ⟨hf, rfl⟩ | ⟨hf, hd, hpolicy⟩ | ⟨i, hr, he⟩
  · exact .inl ⟨_, .fetch hf, rfl⟩
  · refine .inl ⟨_, .unknown hf hd, ?_⟩
    rcases hpolicy with ⟨-, rfl⟩ | ⟨-, rfl⟩ <;> rfl
  · rcases exec_ends i s t he with ⟨a, ha, rfl⟩ | ⟨⟨a, rfl⟩, hsp, rfl⟩ | ⟨rfl, hsp, rfl⟩ |
      ⟨rfl, rfl⟩ | ⟨⟨x, hi⟩, hst, -⟩ | ⟨hok, -, hexit⟩
    · exact .inl ⟨_, .handler i a hr ha, rfl⟩
    · exact .inl ⟨_, .overflow a hr (congrArg Fin.val hsp), rfl⟩
    · exact .inl ⟨_, .underflow hr (congrArg Fin.val hsp), rfl⟩
    · exact .inr (.inl ⟨hr, rfl⟩)
    · cases hst.symm.trans (runs_ldSTVx hr x hi)
    · exact .inr (.inr ⟨fun hx => hexit (runs_unique hr hx), hok⟩)

theorem StepFails.of_outcome {s t : State} {e : ErrorKind} (h : step s = .next t)
    (he : t.outcome = .error e) : StepFails s e := by
  rcases step_ends h with ⟨e', hfails, he'⟩ | ⟨-, rfl⟩ | ⟨-, hok⟩
  · cases he.symm.trans he'
    exact hfails
  · cases he
  · cases hok.symm.trans he

/-- `t` is `s` with the error `e` handed to the host; `pc` has advanced by 2 where the policy is skip
and the error an unknown opcode (`60_exceptions.md` R117). -/
def ErrorAnswer (s : State) (e : ErrorKind) (t : State) : Prop :=
  t = s.report (.error e) ∨
    (s.params.unknownOpcodePolicy = .skip ∧ (∃ w, e = .unknownOpcode w) ∧
      t = (s.setPc (s.pc + 2)).report (.error e))

theorem StepFails.step_eq {s : State} {e : ErrorKind} (h : StepFails s e) :
    ∃ t, step s = .next t ∧ ErrorAnswer s e t := by
  cases h with
  | fetch hf => exact ⟨_, step_of_not_canFetch hf, .inl rfl⟩
  | unknown hf hd =>
    cases hp : s.params.unknownOpcodePolicy with
    | abort => exact ⟨_, (step_of_unknown hf hd).trans (raiseUnknown_abort _ s hp), .inl rfl⟩
    | skip =>
      exact ⟨_, (step_of_unknown hf hd).trans (raiseUnknown_skip _ s hp), .inr ⟨hp, ⟨_, rfl⟩, rfl⟩⟩
  | handler i a hr ha =>
    exact ⟨_, (step_of_runs hr).trans (exec_of_handlerOutOfBounds ha), .inl rfl⟩
  | overflow a hr hsp => exact ⟨_, (step_of_runs hr).trans (exec_call_full s a hsp), .inl rfl⟩
  | underflow hr hsp => exact ⟨_, (step_of_runs hr).trans (exec_ret_empty s hsp), .inl rfl⟩

theorem ErrorAnswer.outcome {s t : State} {e : ErrorKind} (h : ErrorAnswer s e t) :
    t.outcome = .error e := by
  rcases h with rfl | ⟨-, -, rfl⟩ <;> rfl

theorem errorAnswer_of_outcome {s t : State} {e : ErrorKind} (h : step s = .next t)
    (he : t.outcome = .error e) : ErrorAnswer s e t := by
  obtain ⟨t', h', ha⟩ := (StepFails.of_outcome h he).step_eq
  cases h.symm.trans h'
  exact ha

theorem step_error_iff {s t : State} {e : ErrorKind} (h : step s = .next t) :
    t.outcome = .error e ↔ StepFails s e := by
  refine ⟨.of_outcome h, fun hfails => ?_⟩
  obtain ⟨t', h', ha⟩ := hfails.step_eq
  cases h.symm.trans h'
  exact ha.outcome

/-- Settles O13: each way to fail answers as R117 says. -/
theorem errorLeavesNoTrace : Obligations.ErrorLeavesNoTrace := by
  unfold Obligations.ErrorLeavesNoTrace
  intro s t e h he
  exact errorAnswer_of_outcome h he

/-- Settles O14: of the ways to fail, a fetch and a handler raise `OutOfBounds`. -/
theorem outOfBoundsExactlyAsListed : Obligations.OutOfBoundsExactlyAsListed := by
  unfold Obligations.OutOfBoundsExactlyAsListed
  intro s t a h
  rw [step_error_iff h]
  constructor
  · rintro (hf | _ | ⟨i, _, hr, ha⟩)
    · exact .inl ⟨hf, rfl⟩
    · exact .inr ⟨i, hr, ha⟩
  · rintro (⟨hf, rfl⟩ | ⟨i, hr, ha⟩)
    · exact .fetch hf
    · exact .handler i a hr ha

/-! ## Halts (R116) -/

theorem step_of_exit {s : State} (h : Runs s .exit) :
    step s = .next (s.report .haltRequested) :=
  (step_of_runs h).trans (exec_exit s)

theorem step_halted_iff {s t : State} (h : step s = .next t) :
    t.outcome = .haltRequested ↔ Runs s .exit := by
  refine ⟨fun hh => ?_, fun hr => ?_⟩
  · rcases step_ends h with ⟨e, -, he⟩ | ⟨hr, -⟩ | ⟨-, hok⟩
    · cases hh.symm.trans he
    · exact hr
    · cases hh.symm.trans hok
  · cases h.symm.trans (step_of_exit hr)
    rfl

/-- Settles O15: EXIT hands its outcome to the host and leaves `pc` at itself. -/
theorem haltRequestedByExitAlone : Obligations.HaltRequestedByExitAlone := by
  unfold Obligations.HaltRequestedByExitAlone
  intro s t h
  refine ⟨step_halted_iff h, fun hh => ?_⟩
  have hr : Runs s .exit := (step_halted_iff h).mp hh
  cases h.symm.trans (step_of_exit hr)
  exact ⟨rfl, step_of_exit (s := s.report .haltRequested) hr⟩

/-! ## An error repeats (R120) -/

/-- Under abort the next step ends in the error `e`. -/
structure StuckOn (e : ErrorKind) (s : State) : Prop where
  abort : s.params.unknownOpcodePolicy = .abort
  fails : StepFails s e

/-- What the host's operations write decides no error. -/
theorem StuckOn.others {e : ErrorKind} {s : State} (h : StuckOn e s) (dt st : Byte)
    (key : Vector Bool 16) (dirty : Bool) (o : StepOutcome) :
    StuckOn e { s with dt := dt, st := st, key := key, dirty := dirty, outcome := o } := by
  obtain ⟨habort, hfails⟩ := h
  refine ⟨habort, ?_⟩
  cases hfails with
  | fetch hf => exact .fetch hf
  | unknown hf hd => exact .unknown hf hd
  | handler i a hr ha => exact .handler i a hr (by cases i <;> exact ha)
  | overflow a hr hsp => exact .overflow a hr hsp
  | underflow hr hsp => exact .underflow hr hsp

theorem StuckOn.step_eq {e : ErrorKind} {s : State} (h : StuckOn e s) :
    step s = .next (s.report (.error e)) := by
  obtain ⟨t, ht, rfl | ⟨hskip, -, -⟩⟩ := h.fails.step_eq
  · exact ht
  · cases h.abort.symm.trans hskip

/-- An operation issued during a run leaves the machine stuck, or is refused. -/
theorem StuckOn.act {e : ErrorKind} {u : Session} (h : StuckOn e u.core) {op : HostOp}
    (hop : op.duringRun = true) :
    (∃ v, u.act op = .next v ∧ StuckOn e v.core) ∨ ∃ r, u.act op = .refused r := by
  cases op with
  | reset | loadRom bytes => cases hop
  | step => exact .inl ⟨_, act_step u _ h.step_eq, h.others ..⟩
  | setKey k b =>
    rcases setKey_cases k b u.core with ⟨hk, he⟩ | ⟨-, he⟩
    · exact .inl ⟨⟨u.core.setKeyLatch ⟨k, hk⟩ b, u.stepped⟩, by rw [Session.act, he, Session.wrap],
        h.others ..⟩
    · exact .inr ⟨_, by rw [Session.act, he, Session.wrap]⟩
  | timerTick => exact .inl ⟨_, rfl, h.others ..⟩
  | readFb => exact .inl ⟨u, rfl, h⟩
  | clearDirty => exact .inl ⟨_, rfl, h.others ..⟩

theorem StuckOn.run {e : ErrorKind} (ops : List HostOp) {u : Session} (h : StuckOn e u.core)
    (hops : ∀ op ∈ ops, op.duringRun = true) : StuckOn e (Session.run ops u).core := by
  induction ops generalizing u with
  | nil => exact h
  | cons op ops ih =>
    obtain ⟨hop, hrest⟩ := List.forall_mem_cons.mp hops
    rcases h.act hop with ⟨v, he, hv⟩ | ⟨r, he⟩
    · simp only [Session.run, he]
      exact ih hv hrest
    · simp only [Session.run, he]
      exact ih h hrest

/-- Settles O18: the machine is stuck before the failing step, so after it and after the operations. -/
theorem errorRepeatsWhateverTheHostDoes : Obligations.ErrorRepeatsWhateverTheHostDoes := by
  unfold Obligations.ErrorRepeatsWhateverTheHostDoes
  intro s t e ops habort h he hops
  have hs : StuckOn e s := ⟨habort, .of_outcome h he⟩
  cases h.symm.trans hs.step_eq
  have ht : StuckOn e (s.report (.error e)) := hs.others ..
  exact ⟨_, (ht.run (u := ⟨_, true⟩) ops hops).step_eq, rfl⟩

/-! ## What the host's operations leave alone (R124 to R126) -/

theorem Unchanged.trans {s t u : State} {p : Part} (h : Unchanged s t p) (h' : Unchanged t u p) :
    Unchanged s u p := by
  cases p with
  | stack =>
    obtain ⟨hsp, hslots⟩ := h
    exact ⟨h'.1.trans hsp, h'.2.trans hslots⟩
  | memory => exact fun a => (h' a).trans (h a)
  | framebuffer => exact fun x y => (h' x y).trans (h x y)
  | index | delayTimer | soundTimer | keys | dirty | mode | params | draws => exact Eq.trans h' h

theorem SameBut.trans {parts : List Part} {s t u : State} (h : SameBut parts s t)
    (h' : SameBut parts t u) : SameBut parts s u :=
  fun p hp => (h p hp).trans (h' p hp)

theorem SameBut.mono {parts parts' : List Part} {s t : State} (h : SameBut parts s t)
    (hsub : parts ⊆ parts') : SameBut parts' s t :=
  fun p hp => h p fun hmem => hp (hsub hmem)

theorem sameBut_setKeyLatch (s : State) (k : Fin 16) (b : Bool) :
    SameBut [.keys] s (s.setKeyLatch k b) := by
  intro p hp
  have hrefl : Unchanged s s p := .refl s p
  cases p with
  | keys => exact absurd (List.mem_singleton_self _) hp
  | _ => exact hrefl

theorem sameBut_clearDirty (s : State) : SameBut [.dirty] s s.clearDirty := by
  intro p hp
  have hrefl : Unchanged s s p := .refl s p
  cases p with
  | dirty => exact absurd (List.mem_singleton_self _) hp
  | _ => exact hrefl

theorem sameBut_timerTick (s : State) : SameBut [.delayTimer, .soundTimer] s s.timerTick :=
  ((sameBut_setDelay s _).mono (by simp)).trans ((sameBut_setSound _ _).mono (by simp))

theorem tick_toNat (b : Byte) : (tick b).toNat = b.toNat - 1 := by
  unfold tick
  split
  · rename_i h
    subst h
    rfl
  · bv_omega

/-- Settles O52: a tick as a number, where the timer is fitted. -/
theorem timerTickCountsDownToZero : Obligations.TimerTickCountsDownToZero := by
  unfold Obligations.TimerTickCountsDownToZero
  intro s
  refine ⟨tick_toNat s.dt, ?_, rfl, rfl, fun _ _ => rfl, sameBut_timerTick s⟩
  show (if s.params.hasSoundTimer then tick s.st else s.st).toNat = _
  split
  · exact tick_toNat s.st
  · rfl

/-- Settles O53: the latch written, and the number refused. -/
theorem setKeyWritesOneLatch : Obligations.SetKeyWritesOneLatch := by
  unfold Obligations.SetKeyWritesOneLatch
  intro s k b
  refine ⟨fun hk => ?_, fun hk => dif_neg (by omega)⟩
  refine ⟨s.setKeyLatch ⟨k, hk⟩ b, dif_pos hk, rfl, rfl, fun _ _ => rfl,
    sameBut_setKeyLatch s _ b, fun j => ?_⟩
  show (s.key.set k b hk)[j.val] = _
  rw [Vector.getElem_set]
  exact if_congr eq_comm rfl rfl

theorem readFb_pixels_getElem? (s : State) (x : Fin 64) (y : Fin 32) :
    s.readFb.pixels[64 * y.val + x.val]? = some (s.pixel x y) := by
  have hx : Fin.ofNat 64 (64 * y.val + x.val) = x := by
    rw [Fin.ext_iff, Fin.val_ofNat]
    omega
  have hy : Fin.ofNat 32 ((64 * y.val + x.val) / 64) = y := by
    rw [Fin.ext_iff, Fin.val_ofNat]
    omega
  have hlt : 64 * y.val + x.val < 2048 := by omega
  simp only [readFb, List.getElem?_map, List.getElem?_range hlt, Option.map_some, hx, hy]

/-- Settles O54: element `64 * y + x` is the pixel of column `x`, row `y`. -/
theorem readFramebufferAndClearDirty : Obligations.ReadFramebufferAndClearDirty := by
  unfold Obligations.ReadFramebufferAndClearDirty
  intro s
  refine ⟨⟨?_, rfl, rfl, readFb_pixels_getElem? s⟩,
    ⟨rfl, rfl, rfl, fun _ _ => rfl, sameBut_clearDirty s⟩, fun _ => rfl⟩
  simp only [readFb, List.length_map, List.length_range]

/-! ## Runs (R130) -/

theorem perform_step {u : Session} {t : State} (h : step u.core = .next t) (ops : List RunOp) :
    Run.perform (.step :: ops) (.going u) = Run.perform ops (Run.afterStep t) := by
  rw [perform_going, actOn_step u t h]

theorem start_going (s : State) (rom : Option (List Byte)) : ∃ u : Session,
    Run.start s rom = .going u ∧ u.stepped = false ∧ (rom = none → u.core = s.hostReset) ∧
      ∀ bytes, rom = some bytes → s.hostReset.loadRom bytes = .next u.core := by
  cases rom with
  | none => exact ⟨⟨s.hostReset, false⟩, rfl, rfl, fun _ => rfl, nofun⟩
  | some bytes =>
    obtain ⟨t, ht⟩ : ∃ t, s.hostReset.loadRom bytes = .next t := by
      rcases loadRom_cases bytes s.hostReset with ⟨-, m, -, e⟩ | ⟨-, e⟩
      · exact ⟨_, e⟩
      · exact ⟨_, e⟩
    refine ⟨⟨t, false⟩, ?_, rfl, nofun, fun bytes' hb => ?_⟩
    · simp [Run.start, Session.run, Session.act, ht, Session.wrap]
    · cases hb
      exact ht

/-- Settles O56: the start, a step's three outcomes, and the operations that are no step. -/
theorem runEndsAtTheFirstStepNotOk : Obligations.RunEndsAtTheFirstStepNotOk := by
  unfold Obligations.RunEndsAtTheFirstStepNotOk
  refine ⟨start_going, fun u v t before after hgoing hstep => ?_, fun u op hop => actOn_host u op hop⟩
  have hsplit : Run.perform (before ++ .step :: after) (.going u) =
      Run.perform after (Run.afterStep t) := by
    rw [perform_append, hgoing, perform_step hstep]
  rw [hsplit]
  refine ⟨fun hok => ?_, fun hhalt => ?_, fun e herr => ?_⟩
  · rw [afterStep_ok t hok]
  · rw [afterStep_halt t hhalt, perform_halted]
  · rw [afterStep_error t e herr, perform_faulted]

/-- What ends a run is a step: the operations before it leave the run going, and the run ends at that
step's state. -/
def EndsAtAStep (u : Session) (ops : List RunOp) : Prop :=
  ∃ (before after : List RunOp) (v : Session) (t : State), ops = before ++ .step :: after ∧
    Run.perform before (.going u) = .going v ∧ step v.core = .next t ∧
    Run.perform ops (.going u) = Run.afterStep t

theorem EndsAtAStep.cons {u w : Session} {op : RunOp} {ops : List RunOp}
    (hw : Run.actOn u op = .going w) (h : EndsAtAStep w ops) : EndsAtAStep u (op :: ops) := by
  obtain ⟨before, after, v, t, rfl, hv, ht, hlast⟩ := h
  refine ⟨op :: before, after, v, t, rfl, ?_, ht, ?_⟩
  · rw [perform_going, hw, hv]
  · rw [perform_going, hw, hlast]

/-- A step whose outcome is not `Ok` is a run's last. -/
theorem perform_afterStep_of_not_ok {t : State} (h : t.outcome ≠ .ok) (ops : List RunOp) :
    Run.perform ops (Run.afterStep t) = Run.afterStep t := by
  cases ho : t.outcome with
  | ok => exact absurd ho h
  | haltRequested => rw [afterStep_halt t ho, perform_halted]
  | error e => rw [afterStep_error t e ho, perform_faulted]

theorem endsAtAStep_of_not_going (ops : List RunOp) (u : Session)
    (hend : ∀ v, Run.perform ops (.going u) ≠ .going v) : EndsAtAStep u ops := by
  induction ops generalizing u with
  | nil => exact absurd rfl (hend u)
  | cons op ops ih =>
    have later : ∀ w, Run.actOn u op = .going w → EndsAtAStep u (op :: ops) := fun w hw => by
      rw [perform_going, hw] at hend
      exact (ih w hend).cons hw
    by_cases hop : op = .step
    · subst hop
      obtain ⟨t, ht⟩ := stepAlwaysAnswersNext u.core
      by_cases hok : t.outcome = .ok
      · exact later ⟨t, true⟩ ((actOn_step u t ht).trans (afterStep_ok t hok))
      · exact ⟨[], ops, u, t, rfl, rfl, ht,
          (perform_step ht ops).trans (perform_afterStep_of_not_ok hok ops)⟩
    · obtain ⟨w, hw, -, -⟩ := actOn_host u op hop
      exact later w hw

theorem afterStep_eq_halted {s t : State} (h : Run.afterStep s = .halted t) :
    s = t ∧ s.outcome = .haltRequested := by
  cases ho : s.outcome with
  | ok => cases (afterStep_ok s ho).symm.trans h
  | haltRequested =>
    cases (afterStep_halt s ho).symm.trans h
    exact ⟨rfl, rfl⟩
  | error e => cases (afterStep_error s e ho).symm.trans h

theorem afterStep_eq_faulted {s t : State} {e : ErrorKind} (h : Run.afterStep s = .faulted e t) :
    s = t ∧ s.outcome = .error e := by
  cases ho : s.outcome with
  | ok => cases (afterStep_ok s ho).symm.trans h
  | haltRequested => cases (afterStep_halt s ho).symm.trans h
  | error e' =>
    cases (afterStep_error s e' ho).symm.trans h
    exact ⟨rfl, rfl⟩

/-- Settles O57: what the last step's outcome says of its state. -/
theorem finalStateIsTheStateBeforeTheLastStep :
    Obligations.FinalStateIsTheStateBeforeTheLastStep := by
  unfold Obligations.FinalStateIsTheStateBeforeTheLastStep
  intro u ops
  refine ⟨fun t h => ?_, fun e t h => ?_⟩
  · obtain ⟨before, after, v, t', hops, hv, ht, hlast⟩ := endsAtAStep_of_not_going ops u (by simp [h])
    obtain ⟨rfl, hhalt⟩ := afterStep_eq_halted (hlast.symm.trans h)
    have hr : Runs v.core .exit := (step_halted_iff ht).mp hhalt
    cases ht.symm.trans (step_of_exit hr)
    exact ⟨before, after, v, hops, hv, hr, rfl⟩
  · obtain ⟨before, after, v, t', hops, hv, ht, hlast⟩ := endsAtAStep_of_not_going ops u (by simp [h])
    obtain ⟨rfl, herr⟩ := afterStep_eq_faulted (hlast.symm.trans h)
    exact ⟨before, after, v, hops, hv, errorAnswer_of_outcome ht herr⟩

theorem runSteps_succ {s t : State} (h : step s = .next t) (n : Nat) :
    runSteps (n + 1) s = if t.ended then t else runSteps n t := by
  rw [runSteps, h]

/-- Settles O59: after each step both go on from its state, or both stand there. -/
theorem bareStepsAreARun : Obligations.BareStepsAreARun := by
  unfold Obligations.BareStepsAreARun
  intro s b n
  induction n generalizing s b with
  | zero => rfl
  | succ n ih =>
    obtain ⟨t, ht⟩ := stepAlwaysAnswersNext s
    rw [List.replicate_succ, perform_step ht, runSteps_succ ht]
    cases ho : t.outcome with
    | ok => simp [afterStep_ok t ho, ended, ho, ih]
    | haltRequested => simp [afterStep_halt t ho, ended, ho, Run.core]
    | error e => simp [afterStep_error t e ho, ended, ho, Run.core]

/-! ## Runs that never end (R62, R100, R130) -/

/-- Where each operation listed lets the run go on and keeps `P`, so do all of them. -/
theorem perform_going_of_invariant {P : State → Prop} (ops : List RunOp) (u : Session)
    (hact : ∀ op ∈ ops, ∀ v : Session, P v.core → ∃ w, Run.actOn v op = .going w ∧ P w.core)
    (hu : P u.core) : ∃ v, Run.perform ops (.going u) = .going v ∧ P v.core := by
  induction ops generalizing u with
  | nil => exact ⟨u, rfl, hu⟩
  | cons op ops ih =>
    obtain ⟨hop, hrest⟩ := List.forall_mem_cons.mp hact
    obtain ⟨w, hw, hPw⟩ := hop u hu
    rw [perform_going, hw]
    exact ih w hrest hPw

/-- `t` stands where `s` does: `pc`, the registers and every piece but those listed are the same. -/
structure Lingers (parts : List Part) (s t : State) : Prop where
  pc : t.pc = s.pc
  regs : RegsBut [] s t
  pieces : SameBut parts s t

namespace Lingers

variable {parts : List Part} {s t u : State}

theorem refl (parts : List Part) (s : State) : Lingers parts s s :=
  ⟨rfl, fun _ _ => rfl, .refl parts s⟩

theorem trans (h : Lingers parts s t) (h' : Lingers parts t u) : Lingers parts s u :=
  ⟨h'.pc.trans h.pc, fun k hk => (h'.regs k hk).trans (h.regs k hk), h.pieces.trans h'.pieces⟩

theorem report (parts : List Part) (s : State) (o : StepOutcome) : Lingers parts s (s.report o) :=
  ⟨rfl, fun _ _ => rfl, (sameBut_report s o).mono (List.nil_subset parts)⟩

/-- The next step runs what it would have run: fetch and decode read `pc`, memory and the
parameters. -/
theorem runs {i : Instr} (h : Lingers parts s t) (hmem : .memory ∉ parts) (hparams : .params ∉ parts)
    (hr : Runs s i) : Runs t i := by
  have hread : ∀ a, t.readByte a = s.readByte a := h.pieces .memory hmem
  have hp : t.params = s.params := h.pieces .params hparams
  have hw : t.fetchedWord = s.fetchedWord := by simp only [fetchedWord, h.pc, hread]
  obtain ⟨hf, hd⟩ := hr
  refine ⟨?_, ?_⟩
  · rwa [canFetch, h.pc]
  · rwa [hp, hw]

end Lingers

/-- An operation of the host that is no step lets the run go on where it was, but for the timers, the
keys and `dirty`. -/
theorem actOn_host_lingers {parts : List Part} (op : RunOp) (u : Session) (hop : op ≠ .step)
    (hparts : [.delayTimer, .soundTimer, .dirty] ⊆ parts)
    (hkeys : ∀ k b, op = .setKey k b → .keys ∈ parts ∨ ∀ hk : k < 16, u.core.key[k] = b) :
    ∃ v, Run.actOn u op = .going v ∧ Lingers parts u.core v.core := by
  rcases act_hostOp_cases op u hop with ⟨k, b, hk, rfl, e⟩ | ⟨k, b, -, -, e⟩ | ⟨-, e⟩ | ⟨-, e⟩ | ⟨-, e⟩
  · refine ⟨_, actOn_next u _ _ hop e, rfl, fun _ _ => rfl, ?_⟩
    rcases hkeys k b rfl with hmem | hsame
    · exact (sameBut_setKeyLatch _ _ _).mono (by simpa using hmem)
    · have hset : u.core.setKeyLatch ⟨k, hk⟩ b = u.core := by
        rw [setKeyLatch, ← hsame hk]
        simp
      rw [hset]
      exact .refl parts _
  · exact ⟨u, actOn_refused u _ _ e, .refl parts _⟩
  · exact ⟨_, actOn_next u _ _ hop e, rfl, fun _ _ => rfl,
      (sameBut_timerTick _).mono (List.Subset.trans (by decide) hparts)⟩
  · exact ⟨_, actOn_next u _ _ hop e, .refl parts _⟩
  · exact ⟨_, actOn_next u _ _ hop e, rfl, fun _ _ => rfl,
      (sameBut_clearDirty _).mono (List.Subset.trans (by decide) hparts)⟩

/-- A run goes on where it is if the instruction there completes and changes nothing, as long as no key
event changes a latch that has to stay. -/
theorem perform_lingers {parts : List Part} {i : Instr} {u : Session} {ops : List RunOp}
    (hr : Runs u.core i) (hmem : .memory ∉ parts) (hparams : .params ∉ parts)
    (hparts : [.delayTimer, .soundTimer, .dirty] ⊆ parts)
    (hexec : ∀ t, Lingers parts u.core t → exec i t = .next (t.report .ok))
    (hkeys : ∀ t, Lingers parts u.core t → ∀ k b, .setKey k b ∈ ops →
      .keys ∈ parts ∨ ∀ hk : k < 16, t.key[k] = b) :
    ∃ v, Run.perform ops (.going u) = .going v ∧ v.core.pc = u.core.pc ∧ RegsBut [] u.core v.core ∧
      SameBut parts u.core v.core := by
  suffices hstay : ∃ v, Run.perform ops (.going u) = .going v ∧ Lingers parts u.core v.core by
    obtain ⟨v, hv, hpc, hregs, hpieces⟩ := hstay
    exact ⟨v, hv, hpc, hregs, hpieces⟩
  refine perform_going_of_invariant ops u (fun op hmem_op v hv => ?_) (.refl parts u.core)
  by_cases hop : op = .step
  · subst hop
    have hstep : step v.core = .next (v.core.report .ok) :=
      (step_of_runs (hv.runs hmem hparams hr)).trans (hexec v.core hv)
    exact ⟨⟨_, true⟩, (actOn_step v _ hstep).trans (afterStep_ok _ rfl),
      hv.trans (.report parts v.core .ok)⟩
  · obtain ⟨w, hw, hlingers⟩ := actOn_host_lingers op v hop hparts
      fun k b hkb => hkeys v.core hv k b (hkb ▸ hmem_op)
    exact ⟨w, hw, hv.trans hlingers⟩

/-- A jump to itself changes nothing. -/
theorem exec_jp_self {s : State} {a : Addr12} (h : addrWord a = s.pc) :
    exec (.jp a) s = .next (s.report .ok) := by
  simp only [exec, execJp, h, finish_eq]
  rfl

/-- Settles O58: each instruction completes and changes nothing wherever the run lingers; the wait does
so because the latches, all released, stay. -/
theorem endlessRunsNeverEnd : Obligations.EndlessRunsNeverEnd := by
  unfold Obligations.EndlessRunsNeverEnd
  intro u ops
  refine ⟨fun a hr ha => ?_, fun x hr hreleased hops => ?_⟩
  · exact perform_lingers hr (by decide) (by decide) (by decide)
      (fun t ht => exec_jp_self (ha.trans ht.pc.symm)) (fun _ _ _ _ _ => .inl (by decide))
  · have hkey : ∀ t, Lingers [.delayTimer, .soundTimer, .dirty] u.core t →
        ∀ k : Fin 16, t.key[k] = false := fun t ht k => by
      have hsame : t.key = u.core.key := ht.pieces .keys (by decide)
      rw [hsame]
      exact hreleased k
    refine perform_lingers hr (by decide) (by decide) (by decide)
      (fun t ht => exec_ldVxK_released t x (hkey t ht)) (fun t ht k b hmem => ?_)
    cases b with
    | true => exact absurd hmem (hops k)
    | false => exact .inr fun hk => hkey t ht ⟨k, hk⟩

end Sys2Proof.Machine

/-! SUPPORT. Loading a program (`70_reset_and_hazards.md`): what memory holds after it, and the first
fetch after reset. -/

namespace Sys2Proof.Machine

open State

/-! ## A program that fits, and one that does not (R137) -/

/-- A program that fits is stored from 0x200 on, and nothing but memory is written. -/
theorem loadRom_fits (s : State) {bytes : List Byte} (hfits : bytes.length ≤ 3584) :
    ∃ t, s.loadRom bytes = .next t ∧ t.outcome = .ok ∧ t.pc = s.pc ∧ RegsBut [] s t ∧
      SameBut [.memory] s t ∧ Stored 0x200 bytes s.mem t.mem := by
  rcases loadRom_cases bytes s with ⟨-, m, hst, e⟩ | ⟨hlong, -⟩
  · exact ⟨_, e, rfl, rfl, fun _ _ => rfl,
      (sameBut_setMem s m).trans ((sameBut_report _ _).mono (List.nil_subset _)), hst⟩
  · omega

theorem loadRom_tooLong (s : State) {bytes : List Byte} (hlong : 3584 < bytes.length) :
    s.loadRom bytes = .next (s.report (.error (.romTooLarge bytes.length))) :=
  if_pos hlong

/-- Settles O50: the bytes stored, the error of a program too long, and the refusal after a step. -/
theorem loadRomCopiesOrFails : Obligations.LoadRomCopiesOrFails := by
  unfold Obligations.LoadRomCopiesOrFails
  intro s bytes
  refine ⟨fun hw hfits => ?_, loadRom_tooLong s, rfl⟩
  obtain ⟨t, hload, hok, hpc, hregs, hsame, hst⟩ := loadRom_fits s hfits
  exact ⟨t, hload, hok, hpc, hregs, hsame, hst.inside hw, hst.outside⟩

/-! ## The first fetch (R139) -/

/-- Settles O51: `pc` is 0x200 after reset, and the program's first two bytes are stored there. -/
theorem firstInstructionIsTheFirstTwoRomBytes :
    Obligations.FirstInstructionIsTheFirstTwoRomBytes := by
  unfold Obligations.FirstInstructionIsTheFirstTwoRomBytes
  intro s hi lo rest hlen
  have hfits : (hi :: lo :: rest).length ≤ 3584 := by
    simp only [List.length_cons]
    omega
  obtain ⟨t, hload, -, hpc, hregs, hsame, hst⟩ := loadRom_fits s.hostReset hfits
  have hpc_base : t.pc.toNat = 0x200 := by
    rw [hpc]
    rfl
  have hw : Memory.wf s.hostReset.mem := (State.Inv.hostReset s).memoryCanonical
  have hhi : t.readByte 0x200 = hi := hst.inside hw 0 (by simp)
  have hlo : t.readByte (0x200 + 1) = lo := hst.inside hw 1 (by simp)
  refine ⟨t, hload, ?_, hpc_base, ?_, hregs, hsame⟩
  · rw [canFetch, hpc_base]
    decide
  · rw [fetchedWord, hpc_base, hhi, hlo]

end Sys2Proof.Machine
